-- ==== Sys2Proof/Word.lean ====
section
/-! DEFINITION. The word types of the CORE (`00_scope.md` R3: XLEN, TAG_BITS, NREGS). -/

namespace Sys2Proof

/-- A register, a stack word, an immediate, a stack offset, a jump offset field: 16 bits (R3, R10, R19). -/
abbrev Word := BitVec 16

/-- One byte of the wire format (R60, R61). -/
abbrev Byte := BitVec 8

/-- A register identifier: exactly 16 members, ordinals 0 to 15 (R11). -/
abbrev Reg := Fin 16

end Sys2Proof
end

