-- ==== Sys2Proof/Syntax.lean ====
section
/-! DEFINITION. The instruction set: the closed set of 19 instructions of `00_scope.md` R5, in the
order of that rule and of `spec/opcode_table.json`. -/

namespace Sys2Proof

/-- An instruction value: a variant of R5 with its operands in the document's order. A stack offset
and an immediate are unsigned 16-bit values; a jump offset is its 16-bit field, which
`Decode.lean` reads as a signed number (R64). -/
inductive Instr where
  /-- Return (R100), `ret`. -/
  | ret
  /-- LoadImmediate(immediate, dest) (R110), `putreg`. -/
  | loadImmediate (immediate : Word) (dest : Reg)
  /-- LoadFromStack(offset, dest) (R111), `copysr`. -/
  | loadFromStack (offset : Word) (dest : Reg)
  /-- CopyRegToReg(src, dest) (R112), `copyrr`. -/
  | copyRegToReg (src dest : Reg)
  /-- StoreToStack(src, offset) (R113), `copyrs`. -/
  | storeToStack (src : Reg) (offset : Word)
  /-- Add(a, b) (R121), `add`. -/
  | add (a b : Reg)
  /-- Sub(a, b) (R122), `sub`. -/
  | sub (a b : Reg)
  /-- Mul(a, b) (R123), `mul`. -/
  | mul (a b : Reg)
  /-- Div(a, b) (R124), `div`. -/
  | div (a b : Reg)
  /-- Print(reg) (R130), `print`. -/
  | print (reg : Reg)
  /-- Jump(offset) (R141), `jump`. -/
  | jump (offset : Word)
  /-- JumpIfTrue(offset) (R142), `jumptrue`. -/
  | jumpIfTrue (offset : Word)
  /-- JumpIfFalse(offset) (R143), `jumpfalse`. -/
  | jumpIfFalse (offset : Word)
  /-- CompareEqual(a, b) (R151), `cmpeq`. -/
  | compareEqual (a b : Reg)
  /-- CompareNotEqual(a, b) (R152), `cmpne`. -/
  | compareNotEqual (a b : Reg)
  /-- CompareLess(a, b) (R153), `cmplt`. -/
  | compareLess (a b : Reg)
  /-- CompareLessOrEqual(a, b) (R154), `cmple`. -/
  | compareLessOrEqual (a b : Reg)
  /-- CompareGreater(a, b) (R155), `cmpgt`. -/
  | compareGreater (a b : Reg)
  /-- CompareGreaterOrEqual(a, b) (R156), `cmpge`. -/
  | compareGreaterOrEqual (a b : Reg)
deriving DecidableEq, Repr

/-- The 19 variants without their operands: what a tag byte or a mnemonic selects (R61, R75). -/
inductive Opcode where
  | ret | loadImmediate | loadFromStack | copyRegToReg | storeToStack
  | add | sub | mul | div | print
  | jump | jumpIfTrue | jumpIfFalse
  | compareEqual | compareNotEqual | compareLess
  | compareLessOrEqual | compareGreater | compareGreaterOrEqual
deriving DecidableEq, Repr

/-- The six encoding formats of `30_encoding.md` R62. -/
inductive Format where
  /-- no operand -/
  | n
  /-- 16-bit field, then a register -/
  | ir
  /-- register, then a 16-bit field -/
  | ri
  /-- two registers -/
  | rr
  /-- one register -/
  | r
  /-- a 16-bit jump offset -/
  | j
deriving DecidableEq, Repr

end Sys2Proof
end

