-- ==== Sys2Proof/Config.lean ====
section
/-! DEFINITION. The configuration fields of `00_scope.md` R3: the parameters the source document
leaves open and the spec decides (`92_eei_decisions.md`). The decided values are `Config.spec`, in
`Decode.lean`. The one parameter that the spec leaves OPEN, PROG_LEN_MAX, is no field: it is an
argument of what loads a program (D9, log 12). -/

namespace Sys2Proof

/-- OPERAND_BYTE_ORDER (R3, R63, U1): the order of the two bytes of a 16-bit field. -/
inductive ByteOrder where
  | little | big
deriving DecidableEq, Repr

/-- OFFSET_REPRESENTATION (R3, R64): the spec names two's complement and no other (D3). -/
inductive OffsetRepresentation where
  | twosComplement
deriving DecidableEq, Repr

/-- OVERFLOW_POLICY (R3, R125, U2): the two policies the document admits. -/
inductive OverflowPolicy where
  /-- wrap modulo 65536: the decided value (D4) -/
  | wrap
  /-- "fail explicitly": admitted by the document and not chosen -/
  | fault
deriving DecidableEq, Repr

/-- DIV_ROUNDING (R3, R125): the spec names the floor and no other (D5). -/
inductive DivRounding where
  | floor
deriving DecidableEq, Repr

/-- FALLOFF_STATUS (R3, R25): D7 names the two candidates, a constant and register 0. -/
inductive FalloffStatus where
  | const (status : Word)
  | register0
deriving DecidableEq, Repr

/-- The kinds of execution fault (`60_exceptions.md` R160 to R163): two, and no third. -/
inductive FaultKind where
  | outOfBounds
  | divisionByZero
deriving DecidableEq, Repr

/-- The configuration of one machine (R3). -/
structure Config where
  /-- OPCODE_TAGS: one table for encode and decode alike (R66, U9). -/
  tag : Opcode → Byte
  byteOrder : ByteOrder
  offsetRepresentation : OffsetRepresentation
  overflowPolicy : OverflowPolicy
  divRounding : DivRounding
  falloffStatus : FalloffStatus
  /-- JUMP_OUT_OF_RANGE: the fault of a taken jump outside 0..LEN (R144). -/
  jumpOutOfRange : FaultKind
  /-- FAULT_CODES: the numbers of the fault kinds on the `fault_kind` output (R160). -/
  faultCode : FaultKind → Nat
  /-- STACK_WORDS: the capacity of the stack memory (R19, R43). -/
  stackWords : Nat

/-- R66: "Opcode tags must be globally unique one-byte values". -/
def Config.TagsUnique (c : Config) : Prop :=
  ∀ a b : Opcode, c.tag a = c.tag b → a = b

end Sys2Proof
end

