-- ==== Sys2Proof/WellFormed.lean ====
section
/-! DEFINITION. The checks made where a number becomes part of an instruction or a program: in the
decoder and in the assembler (R11, R65, R77, R78) and where a program is placed in the store
(D9). Inside the machine every `Instr` is well formed by its type (R11: "Inside the machine a
register operand is therefore always one of the 16 valid identifiers"). -/

namespace Sys2Proof

/-- R11: "values ≥16 are invalid and must be rejected, not silently wrapped". -/
def registerNumberOk (n : Nat) : Bool := decide (n < 16)

/-- R64, R77: an immediate or a stack offset denotes a value in 0..65535. -/
def unsigned16Ok (n : Int) : Bool := decide (0 ≤ n) && decide (n ≤ 65535)

/-- R64, R77: a jump offset denotes a value in -32768..32767. -/
def signed16Ok (n : Int) : Bool := decide (-32768 ≤ n) && decide (n ≤ 32767)

/-- Every operand of the instruction, read as the number it stands for, passes its check (R20: "an
instruction value of R5 whose register operands are valid identifiers"). -/
def Instr.wellFormed : Instr → Bool
  | .ret => true
  | .loadImmediate imm d => unsigned16Ok imm.toNat && registerNumberOk d.val
  | .loadFromStack off d => unsigned16Ok off.toNat && registerNumberOk d.val
  | .copyRegToReg s d => registerNumberOk s.val && registerNumberOk d.val
  | .storeToStack s off => registerNumberOk s.val && unsigned16Ok off.toNat
  | .add a b => registerNumberOk a.val && registerNumberOk b.val
  | .sub a b => registerNumberOk a.val && registerNumberOk b.val
  | .mul a b => registerNumberOk a.val && registerNumberOk b.val
  | .div a b => registerNumberOk a.val && registerNumberOk b.val
  | .print r => registerNumberOk r.val
  | .jump off => signed16Ok off.toInt
  | .jumpIfTrue off => signed16Ok off.toInt
  | .jumpIfFalse off => signed16Ok off.toInt
  | .compareEqual a b => registerNumberOk a.val && registerNumberOk b.val
  | .compareNotEqual a b => registerNumberOk a.val && registerNumberOk b.val
  | .compareLess a b => registerNumberOk a.val && registerNumberOk b.val
  | .compareLessOrEqual a b => registerNumberOk a.val && registerNumberOk b.val
  | .compareGreater a b => registerNumberOk a.val && registerNumberOk b.val
  | .compareGreaterOrEqual a b => registerNumberOk a.val && registerNumberOk b.val

/-- The program fits the program store: LEN is at most PROG_LEN_MAX, the open parameter (R3, D9). -/
def programFits (progLenMax : Nat) (p : List Instr) : Bool := decide (p.length ≤ progLenMax)

end Sys2Proof
end

