-- ==== Sys2Proof/Decode.lean ====
section
/-! DEFINITION. The binary wire format of `30_encoding.md` sections 2 to 6: the decided
configuration, the field helpers, the decoder, and after it the encoder. -/

namespace Sys2Proof

/-! ### The decided configuration -/

/-- The opcode map of R66 (D1, log 4). -/
def specTag : Opcode → Byte
  | .ret => 0x00
  | .loadImmediate => 0x01
  | .loadFromStack => 0x02
  | .copyRegToReg => 0x03
  | .storeToStack => 0x04
  | .add => 0x05
  | .sub => 0x06
  | .mul => 0x07
  | .div => 0x08
  | .print => 0x09
  | .jump => 0x0A
  | .jumpIfTrue => 0x0B
  | .jumpIfFalse => 0x0C
  | .compareEqual => 0x0D
  | .compareNotEqual => 0x0E
  | .compareLess => 0x0F
  | .compareLessOrEqual => 0x10
  | .compareGreater => 0x11
  | .compareGreaterOrEqual => 0x12

/-- FAULT_CODES of R160 (D13, log 17). -/
def specFaultCode : FaultKind → Nat
  | .outOfBounds => 1
  | .divisionByZero => 2

/-- The values of R3: each decided field at its decision (logs 4 to 8, 10, 11, 17). -/
def Config.spec : Config where
  tag := specTag
  byteOrder := .little
  offsetRepresentation := .twosComplement
  overflowPolicy := .wrap
  divRounding := .floor
  falloffStatus := .const 0
  jumpOutOfRange := .outOfBounds
  faultCode := specFaultCode
  stackWords := 65536

/-! ### Opcodes, formats and lengths -/

/-- The 19 variants in the order of R5. -/
def allOpcodes : List Opcode :=
  [.ret, .loadImmediate, .loadFromStack, .copyRegToReg, .storeToStack,
   .add, .sub, .mul, .div, .print, .jump, .jumpIfTrue, .jumpIfFalse,
   .compareEqual, .compareNotEqual, .compareLess,
   .compareLessOrEqual, .compareGreater, .compareGreaterOrEqual]

/-- The variant a tag byte selects, or none where the tag is not assigned (R66, R71). -/
def opcodeOfTag (c : Config) (t : Byte) : Option Opcode :=
  allOpcodes.find? (fun op => c.tag op == t)

/-- The format of each variant (R62). -/
def opcodeFormat : Opcode → Format
  | .ret => .n
  | .loadImmediate | .loadFromStack => .ir
  | .storeToStack => .ri
  | .copyRegToReg | .add | .sub | .mul | .div => .rr
  | .compareEqual | .compareNotEqual | .compareLess => .rr
  | .compareLessOrEqual | .compareGreater | .compareGreaterOrEqual => .rr
  | .print => .r
  | .jump | .jumpIfTrue | .jumpIfFalse => .j

/-- The length in bytes of each format, its tag byte included (R62). -/
def formatLength : Format → Nat
  | .n => 1
  | .ir => 4
  | .ri => 4
  | .rr => 3
  | .r => 2
  | .j => 3

/-- R67: the length of an instruction is a function of its tag alone. -/
def tagLength (c : Config) (t : Byte) : Option Nat :=
  (opcodeOfTag c t).map (fun op => formatLength (opcodeFormat op))

/-- The variant of an instruction value. -/
def Instr.opcode : Instr → Opcode
  | .ret => .ret
  | .loadImmediate _ _ => .loadImmediate
  | .loadFromStack _ _ => .loadFromStack
  | .copyRegToReg _ _ => .copyRegToReg
  | .storeToStack _ _ => .storeToStack
  | .add _ _ => .add
  | .sub _ _ => .sub
  | .mul _ _ => .mul
  | .div _ _ => .div
  | .print _ => .print
  | .jump _ => .jump
  | .jumpIfTrue _ => .jumpIfTrue
  | .jumpIfFalse _ => .jumpIfFalse
  | .compareEqual _ _ => .compareEqual
  | .compareNotEqual _ _ => .compareNotEqual
  | .compareLess _ _ => .compareLess
  | .compareLessOrEqual _ _ => .compareLessOrEqual
  | .compareGreater _ _ => .compareGreater
  | .compareGreaterOrEqual _ _ => .compareGreaterOrEqual

/-- The length in bytes of an encoded instruction (R62, R67). -/
def Instr.byteLength (i : Instr) : Nat := formatLength (opcodeFormat i.opcode)

/-! ### Operand fields -/

/-- R63: the 16-bit value of a two-byte field, from its first and second byte in stream order. -/
def joinField (o : ByteOrder) (first second : Byte) : Word :=
  match o with
  | .little => second ++ first
  | .big => first ++ second

/-- R63: the low byte `v[7:0]`. -/
def lowByte (v : Word) : Byte := v.extractLsb' 0 8

/-- R63: the high byte `v[15:8]`. -/
def highByte (v : Word) : Byte := v.extractLsb' 8 8

/-- R63: the two bytes of a field in stream order. -/
def splitField (o : ByteOrder) (v : Word) : List Byte :=
  match o with
  | .little => [lowByte v, highByte v]
  | .big => [highByte v, lowByte v]

/-- `as_sint16` (`00_scope.md` section 8.1): `v` if `v < 32768`, else `v - 65536`. -/
def asSint16 (v : Word) : Int :=
  if v.toNat < 32768 then (v.toNat : Int) else (v.toNat : Int) - 65536

/-- R64: the signed number a jump-offset field stands for. -/
def offsetValue (c : Config) (v : Word) : Int :=
  match c.offsetRepresentation with
  | .twosComplement => asSint16 v

/-- R64: the field of a signed jump offset, `off mod 65536`. -/
def offsetField (c : Config) (off : Int) : Word :=
  match c.offsetRepresentation with
  | .twosComplement => BitVec.ofInt 16 off

/-- R65: the register a byte names: 0 to 15 only, never masked. -/
def regOfByte (q : Byte) : Option Reg :=
  if h : q.toNat < 16 then some ⟨q.toNat, h⟩ else none

/-- R65: the byte of a register identifier is its ordinal. -/
def byteOfReg (r : Reg) : Byte := BitVec.ofNat 8 r.val

/-! ### The decoder -/

/-- The failures of `decode` (R68, D12, log 16), each with its byte offset in the stream. -/
inductive DecodeError where
  /-- an unassigned tag: its byte offset and its value -/
  | unknownOpcode (offset : Nat) (tag : Byte)
  /-- too few operand bytes: the byte offset of the tag -/
  | truncated (offset : Nat)
  /-- a register byte of 16 or more: its byte offset and its value -/
  | invalidRegister (offset : Nat) (value : Byte)
deriving DecidableEq, Repr

/-- Read a register byte that stands at byte offset `at'` (R65, R68). -/
def takeReg (at' : Nat) (q : Byte) : Except DecodeError Reg :=
  match regOfByte q with
  | some r => .ok r
  | none => .error (.invalidRegister at' q)

/-- Operands of format IR (R62): low and high byte of a field, then a register. `pos` is the byte
offset of the tag, `rest` what follows the tag. -/
def takeIR (c : Config) (pos : Nat) (mk : Word → Reg → Instr) :
    List Byte → Except DecodeError (Instr × List Byte)
  | b1 :: b2 :: b3 :: rest =>
    match takeReg (pos + 3) b3 with
    | .ok d => .ok (mk (joinField c.byteOrder b1 b2) d, rest)
    | .error e => .error e
  | _ => .error (.truncated pos)

/-- Operands of format RI (R62): a register, then a field. -/
def takeRI (c : Config) (pos : Nat) (mk : Reg → Word → Instr) :
    List Byte → Except DecodeError (Instr × List Byte)
  | b1 :: b2 :: b3 :: rest =>
    match takeReg (pos + 1) b1 with
    | .ok s => .ok (mk s (joinField c.byteOrder b2 b3), rest)
    | .error e => .error e
  | _ => .error (.truncated pos)

/-- Operands of format RR (R62): two registers, checked from left to right (R68). -/
def takeRR (pos : Nat) (mk : Reg → Reg → Instr) :
    List Byte → Except DecodeError (Instr × List Byte)
  | b1 :: b2 :: rest =>
    match takeReg (pos + 1) b1 with
    | .ok a =>
      match takeReg (pos + 2) b2 with
      | .ok b => .ok (mk a b, rest)
      | .error e => .error e
    | .error e => .error e
  | _ => .error (.truncated pos)

/-- Operand of format R (R62): one register. -/
def takeR (pos : Nat) (mk : Reg → Instr) :
    List Byte → Except DecodeError (Instr × List Byte)
  | b1 :: rest =>
    match takeReg (pos + 1) b1 with
    | .ok r => .ok (mk r, rest)
    | .error e => .error e
  | _ => .error (.truncated pos)

/-- Operand of format J (R62): a jump-offset field. -/
def takeJ (c : Config) (pos : Nat) (mk : Word → Instr) :
    List Byte → Except DecodeError (Instr × List Byte)
  | b1 :: b2 :: rest => .ok (mk (joinField c.byteOrder b1 b2), rest)
  | _ => .error (.truncated pos)

/-- The operands of the variant `op`, read from what follows its tag (R61, R62). -/
def takeOperands (c : Config) (pos : Nat) (op : Opcode) (rest : List Byte) :
    Except DecodeError (Instr × List Byte) :=
  match op with
  | .ret => .ok (.ret, rest)
  | .loadImmediate => takeIR c pos .loadImmediate rest
  | .loadFromStack => takeIR c pos .loadFromStack rest
  | .copyRegToReg => takeRR pos .copyRegToReg rest
  | .storeToStack => takeRI c pos .storeToStack rest
  | .add => takeRR pos .add rest
  | .sub => takeRR pos .sub rest
  | .mul => takeRR pos .mul rest
  | .div => takeRR pos .div rest
  | .print => takeR pos .print rest
  | .jump => takeJ c pos .jump rest
  | .jumpIfTrue => takeJ c pos .jumpIfTrue rest
  | .jumpIfFalse => takeJ c pos .jumpIfFalse rest
  | .compareEqual => takeRR pos .compareEqual rest
  | .compareNotEqual => takeRR pos .compareNotEqual rest
  | .compareLess => takeRR pos .compareLess rest
  | .compareLessOrEqual => takeRR pos .compareLessOrEqual rest
  | .compareGreater => takeRR pos .compareGreater rest
  | .compareGreaterOrEqual => takeRR pos .compareGreaterOrEqual rest

/-- The body of the loop of R68: one instruction at byte offset `pos` and the bytes after it. The
checks come in the order tag, length, register bytes. On no bytes at all (where the loop of R68
does not run its body) it answers `truncated`, so that it is total. -/
def decodeOne (c : Config) (pos : Nat) : List Byte → Except DecodeError (Instr × List Byte)
  | [] => .error (.truncated pos)
  | t :: rest =>
    match opcodeOfTag c t with
    | none => .error (.unknownOpcode pos t)
    | some op => takeOperands c pos op rest

/-- The loop of R68 from byte offset `pos`. Each pass consumes at least the tag byte, so a fuel of
the number of bytes is enough and its end is never reached with bytes left. -/
def decodeLoop (c : Config) : Nat → Nat → List Byte → Except DecodeError (List Instr)
  | _, _, [] => .ok []
  | 0, pos, _ :: _ => .error (.truncated pos)
  | fuel + 1, pos, b :: bs =>
    match decodeOne c pos (b :: bs) with
    | .error e => .error e
    | .ok (i, rest) =>
      match decodeLoop c fuel (pos + i.byteLength) rest with
      | .error e => .error e
      | .ok p => .ok (i :: p)

/-- `decode` of R68 under a configuration: the whole stream or no program (R72). -/
def decodeWith (c : Config) (bytes : List Byte) : Except DecodeError (List Instr) :=
  decodeLoop c bytes.length 0 bytes

/-- `decode` of R68 with the spec's configuration. -/
def decode (bytes : List Byte) : Except DecodeError (List Instr) := decodeWith Config.spec bytes

/-! ### The encoder -/

/-- The operand bytes of an instruction in the order and sizes of its format (R61, R62). -/
def operandBytes (c : Config) : Instr → List Byte
  | .ret => []
  | .loadImmediate imm d => splitField c.byteOrder imm ++ [byteOfReg d]
  | .loadFromStack off d => splitField c.byteOrder off ++ [byteOfReg d]
  | .copyRegToReg s d => [byteOfReg s, byteOfReg d]
  | .storeToStack s off => byteOfReg s :: splitField c.byteOrder off
  | .add a b => [byteOfReg a, byteOfReg b]
  | .sub a b => [byteOfReg a, byteOfReg b]
  | .mul a b => [byteOfReg a, byteOfReg b]
  | .div a b => [byteOfReg a, byteOfReg b]
  | .print r => [byteOfReg r]
  | .jump off => splitField c.byteOrder off
  | .jumpIfTrue off => splitField c.byteOrder off
  | .jumpIfFalse off => splitField c.byteOrder off
  | .compareEqual a b => [byteOfReg a, byteOfReg b]
  | .compareNotEqual a b => [byteOfReg a, byteOfReg b]
  | .compareLess a b => [byteOfReg a, byteOfReg b]
  | .compareLessOrEqual a b => [byteOfReg a, byteOfReg b]
  | .compareGreater a b => [byteOfReg a, byteOfReg b]
  | .compareGreaterOrEqual a b => [byteOfReg a, byteOfReg b]

/-- The bytes of one instruction: its tag, then its operands (R69). -/
def encodeInstr (c : Config) (i : Instr) : List Byte := c.tag i.opcode :: operandBytes c i

/-- `encode` of R69 under a configuration: the instructions' bytes with nothing between them. -/
def encodeWith (c : Config) (p : List Instr) : List Byte := p.flatMap (encodeInstr c)

/-- `encode` of R69 with the spec's configuration; total. -/
def encode (p : List Instr) : List Byte := encodeWith Config.spec p

/-! ### One table word -/

/-- The four bytes (the longest instruction's length) of the number `w`, byte 0 its lowest. -/
def bytesOfTableWord (w : Nat) : List Byte :=
  [BitVec.ofNat 8 w, BitVec.ofNat 8 (w / 256), BitVec.ofNat 8 (w / 65536),
   BitVec.ofNat 8 (w / 16777216)]

/-- The instruction the decoder reads first from a stream that starts with the low `nbits` bits of
`w` (byte 0 first) and goes on with zeros up to the longest instruction (log 31). -/
def decodeTableWord (nbits w : Nat) : Option Instr :=
  match decodeOne Config.spec 0 (bytesOfTableWord (w % 2 ^ nbits)) with
  | .ok (i, _) => some i
  | .error _ => none

end Sys2Proof
end

