-- ==== Sys2Proof/Machine/State.lean ====
section
/-! DEFINITION. The state of the CORE (`10_state.md` section 1: "the whole state of one machine is
this list, and nothing else is state"), the model's two kinds of stop, and the state after reset. -/

namespace Sys2Proof.Machine

/-- The run state of R18. `faulted` is what R164 puts in place when an instruction raises a fault:
its kind and the index of the faulting instruction. -/
inductive RunState where
  | running
  | halted (status : Word)
  | faulted (kind : FaultKind) (index : Nat)
deriving DecidableEq, Repr

/-- The stack memory as data: (word index, word) pairs in the one canonical form `Memory.wf` of
`Machine/Ops.lean` (R19, R40; log 3). -/
abbrev Memory := List (Nat × Word)

/-- What stops the MODEL. An execution fault of the spec (R160) is no such stop: its entry is a next
state in which the run state is `faulted` (R164, log 2). -/
inductive Fault where
  /-- Raised by `step` in a Running state whose `pc` is above LEN, where R24 says nothing (R14
  rules such a state out). Safe: no run reaches it (log 28). -/
  | pcOutsideProgram
  /-- Raised by Add, Sub and Mul under the overflow policy `OverflowPolicy.fault` alone, when the
  exact result does not fit 16 bits. The spec's configuration wraps, so no instruction raises it
  (R163). Safe (log 7). -/
  | arithmeticOverflow
deriving DecidableEq, Repr

/-- Why the model gives an instruction no meaning. -/
inductive Refusal where
  /-- Raised by an arm of `exec` whose instruction has no meaning yet: none is left. Safe. -/
  | notModelled (mnemonic : String)
deriving DecidableEq, Repr

/-- The machine's state, one field per piece of R10 to R21, and the program store. -/
structure State where
  /-- the general registers `x[0]` to `x[15]` (R10) -/
  regs : Vector Word 16
  /-- the instruction pointer, an index that counts instructions (R14) -/
  pc : Nat
  /-- the condition flag (R17) -/
  flag : Bool
  /-- the run state (R18) -/
  run : RunState
  /-- the stack memory (R19) -/
  stack : Memory
  /-- the output sequence, oldest value first (R21) -/
  out : List Word
  /-- the program store (R20). The spec calls it a parameter of the step function and no state; the
  model holds it here because its step takes nothing else, and no step changes it (log 1). -/
  prog : List Instr
deriving DecidableEq, Repr

/-- The state after reset (R28, R190), with the empty program in the store (log 1). -/
def State.reset : State where
  regs := Vector.replicate 16 0
  pc := 0
  flag := false
  run := .running
  stack := []
  out := []
  prog := []

end Sys2Proof.Machine
end

