-- ==== Sys2Proof/Machine/Ops.lean ====
section
/-! DEFINITION. The named operations over registers, memory, flag, output, instruction pointer and
run state that the meanings are made of (`00_scope.md` section 8.2), fault entry (R164), and fetch. -/

namespace Sys2Proof.Machine

/-- What a meaning answers. -/
abbrev Result := Host.Outcome State Fault Refusal

/-! ### Registers, flag, output, instruction pointer -/

/-- `x[r]` (R10). -/
def State.readReg (s : State) (r : Reg) : Word := s.regs[r.val]

/-- `x[r] <- v` (R10). -/
def State.writeReg (s : State) (r : Reg) (v : Word) : State :=
  { s with regs := s.regs.set r.val v }

/-- `flag <- b` (R17). -/
def State.setFlag (s : State) (b : Bool) : State := { s with flag := b }

/-- `emit(v)` (R21, R130). -/
def State.emit (s : State) (v : Word) : State := { s with out := s.out ++ [v] }

/-- `pc <- target` (R16). -/
def State.setPc (s : State) (target : Nat) : State := { s with pc := target }

/-- The default advance `pc <- pc + 1` (R15). -/
def State.advance (s : State) : State := { s with pc := s.pc + 1 }

/-! ### Stack memory -/

/-- What a word that no entry lists holds: 0, "zero-initialized" (R19, R28, R42). -/
def Memory.unlisted : Word := 0

/-- `stack[a]` (R42). -/
def Memory.read : Memory → Nat → Word
  | [], _ => Memory.unlisted
  | (b, w) :: m, a => if a = b then w else Memory.read m a

/-- `stack[a] <- v` (R42), keeping the canonical form: writing what an unlisted word holds removes
the entry. -/
def Memory.write : Memory → Nat → Word → Memory
  | [], a, v => if v = Memory.unlisted then [] else [(a, v)]
  | (b, w) :: m, a, v =>
    if a < b then
      if v = Memory.unlisted then (b, w) :: m else (a, v) :: (b, w) :: m
    else if a = b then
      if v = Memory.unlisted then m else (a, v) :: m
    else (b, w) :: Memory.write m a v

/-- Every entry's index is at least `lo` and below the capacity, indices rise strictly, and no entry
holds what an unlisted word holds. -/
def Memory.wfFrom : Nat → Memory → Bool
  | _, [] => true
  | lo, (a, v) :: m =>
    decide (lo ≤ a) && decide (a < Config.spec.stackWords) && decide (v ≠ Memory.unlisted)
      && Memory.wfFrom (a + 1) m

/-- The canonical form of the stack memory. -/
def Memory.wf (m : Memory) : Bool := Memory.wfFrom 0 m

/-- `MemRead(addr, 1)` (R42). -/
def State.memRead (s : State) (addr : Nat) : Word := s.stack.read addr

/-- `MemWrite(addr, 1, v)` (R42). -/
def State.memWrite (s : State) (addr : Nat) (v : Word) : State :=
  { s with stack := s.stack.write addr v }

/-! ### Ends of an instruction -/

/-- The instruction completes: its writes are in `s`, and the default advance follows (R15). -/
def complete (s : State) : Result := .next s.advance

/-- `raise <Fault>` of R164, the whole of fault entry: the run state becomes Faulted with the kind
and the index of this instruction. Nothing is saved, no handler is entered, and nothing else changes
(R165; what a claim may read of the result is `State.observe` of `Safety.lean`, log 18). There is
no return from a fault: R166. -/
def raise (k : FaultKind) (s : State) : Result := .next { s with run := .faulted k s.pc }

/-- `halt(status)` (R100, R25): the run state becomes Halted and nothing else changes. -/
def halt (status : Word) (s : State) : Result := .next { s with run := .halted status }

/-- FALLOFF_STATUS (R25, D7) in the state `s`. -/
def falloffStatus (f : FalloffStatus) (s : State) : Word :=
  match f with
  | .const w => w
  | .register0 => s.readReg 0

/-- Running off the end (R25): "executes no instruction, writes nothing else". -/
def haltAtEnd (s : State) : Result := halt (falloffStatus Config.spec.falloffStatus s) s

/-! ### Fetch -/

/-- What the sequencer finds at the instruction pointer (R24). -/
inductive Fetched where
  /-- an instruction to execute, `pc < LEN` -/
  | instr (i : Instr)
  /-- the end of the program, `pc = LEN` -/
  | atEnd
  /-- `pc > LEN`, which R14 rules out -/
  | outside
deriving DecidableEq, Repr

/-- `I <- prog[pc]` (R24). -/
def fetch (s : State) : Fetched :=
  match s.prog[s.pc]? with
  | some i => .instr i
  | none => if s.pc = s.prog.length then .atEnd else .outside

end Sys2Proof.Machine
end

