-- ==== Sys2Proof/Machine/Operands.lean ====
section
/-! DEFINITION. The operand forms besides a register (`State.readReg`) and an immediate (the value
itself): the stack address (R41, R43) and the jump target (R140, R144). -/

namespace Sys2Proof.Machine

/-- R41: the effective address of a stack access is the offset field itself, `as_int(offset)`. -/
def effectiveAddress (offset : Word) : Nat := offset.toNat

/-- A stack access behind the bounds guard of R43: `if addr >= STACK_WORDS: raise OutOfBounds`. With
65536 words the guard is never taken. -/
def withStackAddress (c : Config) (offset : Word) (s : State) (access : Nat → Result) : Result :=
  if effectiveAddress offset < c.stackWords then access (effectiveAddress offset)
  else raise .outOfBounds s

/-- R140: `target = pc + 1 + off`, over the mathematical integers. -/
def jumpTarget (c : Config) (pc : Nat) (offset : Word) : Int := (pc : Int) + 1 + offsetValue c offset

/-- R144: a target is accepted when `0 <= target <= LEN`. -/
def targetLegal (target : Int) (len : Nat) : Bool := decide (0 ≤ target) && decide (target ≤ len)

/-- A taken jump (R140, R144): the target is checked before the instruction pointer changes. -/
def takeJump (c : Config) (offset : Word) (s : State) : Result :=
  let target := jumpTarget c s.pc offset
  if targetLegal target s.prog.length then .next (s.setPc target.toNat)
  else raise c.jumpOutOfRange s

end Sys2Proof.Machine
end

