-- ==== Sys2Proof/Machine/Alu.lean ====
section
/-! DEFINITION. The arithmetic laws of the ALU (`42_arithmetic.md` R120, R125): exact results over
the integers, then the overflow policy; and the quotient. -/

namespace Sys2Proof.Machine

/-- R125: what becomes of an exact result. Wrapping takes it modulo 65536; the policy the spec does
not choose answers none where it does not fit (U2). -/
def narrow (policy : OverflowPolicy) (exact : Int) : Option Word :=
  match policy with
  | .wrap => some (BitVec.ofInt 16 exact)
  | .fault => if unsigned16Ok exact then some (BitVec.ofInt 16 exact) else none

/-- R125: the quotient of `p` by `q > 0`, rounded as DIV_ROUNDING says: the floor. -/
def quotient (rounding : DivRounding) (p q : Word) : Word :=
  match rounding with
  | .floor => BitVec.ofNat 16 (p.toNat / q.toNat)

/-- What Add, Sub and Mul share (R120): `x[b] <- x[b] OP x[a]`, the second operand on the left and
written, then the default advance. -/
def accumulate (c : Config) (op : Int → Int → Int) (a b : Reg) (s : State) : Result :=
  match narrow c.overflowPolicy (op (s.readReg b).toNat (s.readReg a).toNat) with
  | some result => complete (s.writeReg b result)
  | none => .fault .arithmeticOverflow

/-- Division into the accumulator (R124): the divisor is the first operand, and a zero divisor
raises DivisionByZero before any write. -/
def divideInto (c : Config) (a b : Reg) (s : State) : Result :=
  if (s.readReg a).toNat = 0 then raise .divisionByZero s
  else complete (s.writeReg b (quotient c.divRounding (s.readReg b) (s.readReg a)))

end Sys2Proof.Machine
end

