-- ==== Sys2Proof/Machine/Arithmetic.lean ====
section
/-! DEFINITION. Add, Sub, Mul, Div (`42_arithmetic.md` R121 to R124). The operation's left operand
is the old `x[b]`, its right operand the old `x[a]`. -/

namespace Sys2Proof.Machine

/-- Add (R121): `x[b] <- (x[b] + x[a]) mod 65536`. -/
def execAdd (a b : Reg) (s : State) : Result := accumulate Config.spec (fun p q => p + q) a b s

/-- Sub (R122): `x[b] <- (x[b] - x[a]) mod 65536`. -/
def execSub (a b : Reg) (s : State) : Result := accumulate Config.spec (fun p q => p - q) a b s

/-- Mul (R123): `x[b] <- (x[b] * x[a]) mod 65536`. -/
def execMul (a b : Reg) (s : State) : Result := accumulate Config.spec (fun p q => p * q) a b s

/-- Div (R124): `x[b] <- floor(x[b] / x[a])`, or DivisionByZero when `x[a] = 0`. -/
def execDiv (a b : Reg) (s : State) : Result := divideInto Config.spec a b s

end Sys2Proof.Machine
end

