-- ==== Sys2Proof/Machine/Flags.lean ====
section
/-! DEFINITION. The condition flag's computations: the six relations of `45_compare.md` (R150 to
R156). `p` is the first operand, on the left; both are unsigned (D6, log 9). No other flag
exists (R17). -/

namespace Sys2Proof.Machine

/-- R151: `p = q`. -/
def flagEqual (p q : Word) : Bool := decide (p = q)

/-- R152: `p ≠ q`. -/
def flagNotEqual (p q : Word) : Bool := decide (p ≠ q)

/-- R153: `as_int(p) < as_int(q)`. -/
def flagLess (p q : Word) : Bool := decide (p.toNat < q.toNat)

/-- R154: `as_int(p) <= as_int(q)`. -/
def flagLessOrEqual (p q : Word) : Bool := decide (p.toNat ≤ q.toNat)

/-- R155: `as_int(p) > as_int(q)`. -/
def flagGreater (p q : Word) : Bool := decide (p.toNat > q.toNat)

/-- R156: `as_int(p) >= as_int(q)`. -/
def flagGreaterOrEqual (p q : Word) : Bool := decide (p.toNat ≥ q.toNat)

/-- What the six compares share (R150): both registers are read, the flag takes the relation's truth
with the first operand on the left, and the default advance follows. -/
def compareBy (relation : Word → Word → Bool) (a b : Reg) (s : State) : Result :=
  complete (s.setFlag (relation (s.readReg a) (s.readReg b)))

end Sys2Proof.Machine
end

