-- ==== Sys2Proof/Machine/Compare.lean ====
section
/-! DEFINITION. The six compares (`45_compare.md` R150 to R156). -/

namespace Sys2Proof.Machine

/-- CompareEqual (R151): `flag <- (x[a] = x[b])`. -/
def execCompareEqual (a b : Reg) (s : State) : Result := compareBy flagEqual a b s

/-- CompareNotEqual (R152): `flag <- (x[a] ≠ x[b])`. -/
def execCompareNotEqual (a b : Reg) (s : State) : Result := compareBy flagNotEqual a b s

/-- CompareLess (R153): `flag <- (x[a] < x[b])`, unsigned. -/
def execCompareLess (a b : Reg) (s : State) : Result := compareBy flagLess a b s

/-- CompareLessOrEqual (R154): `flag <- (x[a] <= x[b])`, unsigned. -/
def execCompareLessOrEqual (a b : Reg) (s : State) : Result := compareBy flagLessOrEqual a b s

/-- CompareGreater (R155): `flag <- (x[a] > x[b])`, unsigned. -/
def execCompareGreater (a b : Reg) (s : State) : Result := compareBy flagGreater a b s

/-- CompareGreaterOrEqual (R156): `flag <- (x[a] >= x[b])`, unsigned. -/
def execCompareGreaterOrEqual (a b : Reg) (s : State) : Result :=
  compareBy flagGreaterOrEqual a b s

end Sys2Proof.Machine
end

