-- ==== Sys2Proof/Machine/DataMovement.lean ====
section
/-! DEFINITION. LoadImmediate, LoadFromStack, CopyRegToReg, StoreToStack (`41_data_movement.md`). -/

namespace Sys2Proof.Machine

/-- LoadImmediate (R110): `x[dest] <- immediate`. -/
def execLoadImmediate (immediate : Word) (dest : Reg) (s : State) : Result :=
  complete (s.writeReg dest immediate)

/-- LoadFromStack (R111): `x[dest] <- MemRead(offset, 1)`. -/
def execLoadFromStack (offset : Word) (dest : Reg) (s : State) : Result :=
  withStackAddress Config.spec offset s fun addr => complete (s.writeReg dest (s.memRead addr))

/-- CopyRegToReg (R112): `x[dest] <- x[src]`. -/
def execCopyRegToReg (src dest : Reg) (s : State) : Result :=
  complete (s.writeReg dest (s.readReg src))

/-- StoreToStack (R113): `MemWrite(offset, 1, x[src])`. -/
def execStoreToStack (src : Reg) (offset : Word) (s : State) : Result :=
  withStackAddress Config.spec offset s fun addr => complete (s.memWrite addr (s.readReg src))

end Sys2Proof.Machine
end

