-- ==== Sys2Proof/Machine/Jumps.lean ====
section
/-! DEFINITION. Jump, JumpIfTrue, JumpIfFalse (`44_jumps.md` R140 to R144). An untaken conditional
jump neither computes nor checks its target (R144). -/

namespace Sys2Proof.Machine

/-- Jump (R141): `pc <- pc + 1 + off`. -/
def execJump (offset : Word) (s : State) : Result := takeJump Config.spec offset s

/-- JumpIfTrue (R142): taken when the flag is true, else the default advance. -/
def execJumpIfTrue (offset : Word) (s : State) : Result :=
  if s.flag = true then takeJump Config.spec offset s else complete s

/-- JumpIfFalse (R143): taken when the flag is false, else the default advance. -/
def execJumpIfFalse (offset : Word) (s : State) : Result :=
  if s.flag = false then takeJump Config.spec offset s else complete s

end Sys2Proof.Machine
end

