-- ==== Sys2Proof/Machine/Print.lean ====
section
/-! DEFINITION. Print (`43_print.md` R130). -/

namespace Sys2Proof.Machine

/-- Print (R130): `emit(x[reg])`; the channel is always ready (D15, log 19). -/
def execPrint (reg : Reg) (s : State) : Result := complete (s.emit (s.readReg reg))

end Sys2Proof.Machine
end

