-- ==== Sys2Proof/Machine/Return.lean ====
section
/-! DEFINITION. Return (`40_return.md` R100). -/

namespace Sys2Proof.Machine

/-- Return (R100): `halt(x[0])`; the status is all 16 bits and `pc` does not change (D16, D17). -/
def execRet (s : State) : Result := halt (s.readReg 0) s

end Sys2Proof.Machine
end

