-- ==== Sys2Proof/Machine/Dispatch.lean ====
section
/-! DEFINITION. Dispatch (R24): a total case analysis over the 19 variants, with no default case. -/

namespace Sys2Proof.Machine

/-- Execute one instruction by the rule of its variant (R24). -/
def exec (i : Instr) (s : State) : Host.Outcome State Fault Refusal :=
  match i with
  | .ret => Sys2Proof.Machine.execRet s
  | .loadImmediate immediate dest => Sys2Proof.Machine.execLoadImmediate immediate dest s
  | .loadFromStack offset dest => Sys2Proof.Machine.execLoadFromStack offset dest s
  | .copyRegToReg src dest => Sys2Proof.Machine.execCopyRegToReg src dest s
  | .storeToStack src offset => Sys2Proof.Machine.execStoreToStack src offset s
  | .add a b => Sys2Proof.Machine.execAdd a b s
  | .sub a b => Sys2Proof.Machine.execSub a b s
  | .mul a b => Sys2Proof.Machine.execMul a b s
  | .div a b => Sys2Proof.Machine.execDiv a b s
  | .print reg => Sys2Proof.Machine.execPrint reg s
  | .jump offset => Sys2Proof.Machine.execJump offset s
  | .jumpIfTrue offset => Sys2Proof.Machine.execJumpIfTrue offset s
  | .jumpIfFalse offset => Sys2Proof.Machine.execJumpIfFalse offset s
  | .compareEqual a b => Sys2Proof.Machine.execCompareEqual a b s
  | .compareNotEqual a b => Sys2Proof.Machine.execCompareNotEqual a b s
  | .compareLess a b => Sys2Proof.Machine.execCompareLess a b s
  | .compareLessOrEqual a b => Sys2Proof.Machine.execCompareLessOrEqual a b s
  | .compareGreater a b => Sys2Proof.Machine.execCompareGreater a b s
  | .compareGreaterOrEqual a b => Sys2Proof.Machine.execCompareGreaterOrEqual a b s

end Sys2Proof.Machine
end

