-- ==== Sys2Proof/Machine/Step.lean ====
section
/-! DEFINITION. The step function (R24) and the placing of one table word where it fetches. -/

namespace Sys2Proof.Machine

/-- One step (R24). In a terminal run state nothing changes and it is no error (R18, D21). A Running
state with `pc` above LEN, which R14 rules out, stops the model (log 28). -/
def step (s : State) : Host.Outcome State Fault Refusal :=
  match s.run with
  | .halted _ => .next s
  | .faulted _ _ => .next s
  | .running =>
    match fetch s with
    | .instr i => exec i s
    | .atEnd => haltAtEnd s
    | .outside => .fault .pcOutsideProgram

/-- The program `p` with the instruction `i` at index `k`; where `p` is shorter than `k`, the gap is
filled with `i` too. -/
def placeAt (p : List Instr) (k : Nat) (i : Instr) : List Instr :=
  p.take k ++ List.replicate (k - p.length) i ++ i :: p.drop (k + 1)

/-- `s` with the instruction of a table word at `prog[pc]`, ready for the very next step to fetch
it: this stands for the host's load of a program (R191, log 31). The fetch needs a Running machine,
so the run state is set to Running. A word that does not decode loads nothing (R72). -/
def State.withFetchWord (s : State) (nbits w : Nat) : State :=
  match decodeTableWord nbits w with
  | some i => { s with prog := placeAt s.prog s.pc i, run := .running }
  | none => s

end Sys2Proof.Machine
end

