-- ==== Sys2Proof/Machine/Assembly.lean ====
section
/-! DEFINITION. The assembly text of `30_encoding.md` section 7 (R74 to R82): the assembler `parse`
and the disassembler `format`. Text is a list of characters (log 32). There are no
pseudo-instructions, labels, directives, macros or expressions (R82), so nothing here makes any. -/

namespace Sys2Proof.Machine

/-! ### Mnemonics -/

/-- The mnemonic of each variant (R75; D10, log 13). -/
def mnemonic : Opcode → List Char
  | .ret => ['r', 'e', 't']
  | .loadImmediate => ['p', 'u', 't', 'r', 'e', 'g']
  | .loadFromStack => ['c', 'o', 'p', 'y', 's', 'r']
  | .copyRegToReg => ['c', 'o', 'p', 'y', 'r', 'r']
  | .storeToStack => ['c', 'o', 'p', 'y', 'r', 's']
  | .add => ['a', 'd', 'd']
  | .sub => ['s', 'u', 'b']
  | .mul => ['m', 'u', 'l']
  | .div => ['d', 'i', 'v']
  | .print => ['p', 'r', 'i', 'n', 't']
  | .jump => ['j', 'u', 'm', 'p']
  | .jumpIfTrue => ['j', 'u', 'm', 'p', 't', 'r', 'u', 'e']
  | .jumpIfFalse => ['j', 'u', 'm', 'p', 'f', 'a', 'l', 's', 'e']
  | .compareEqual => ['c', 'm', 'p', 'e', 'q']
  | .compareNotEqual => ['c', 'm', 'p', 'n', 'e']
  | .compareLess => ['c', 'm', 'p', 'l', 't']
  | .compareLessOrEqual => ['c', 'm', 'p', 'l', 'e']
  | .compareGreater => ['c', 'm', 'p', 'g', 't']
  | .compareGreaterOrEqual => ['c', 'm', 'p', 'g', 'e']

/-- The variant a mnemonic selects; case-sensitive (R75). -/
def opcodeOfMnemonic (token : List Char) : Option Opcode :=
  allOpcodes.find? (fun op => mnemonic op == token)

/-! ### Lines and tokens -/

/-- The characters that separate tokens: Unicode whitespace (D11; the list itself is PRESUMED, from
the Unicode property White_Space, log 14). -/
def isSpace (c : Char) : Bool :=
  let n := c.toNat
  (9 ≤ n && n ≤ 13) || n == 0x20 || n == 0x85 || n == 0xA0 || n == 0x1680
    || (0x2000 ≤ n && n ≤ 0x200A) || n == 0x2028 || n == 0x2029 || n == 0x202F
    || n == 0x205F || n == 0x3000

/-- The lines of a text: a line ends at a line feed (R74, D11). -/
def splitLines : List Char → List (List Char)
  | [] => [[]]
  | c :: cs =>
    if c = '\n' then [] :: splitLines cs
    else
      match splitLines cs with
      | [] => [[c]]
      | l :: ls => (c :: l) :: ls

/-- The tokens of a line: its maximal runs of characters other than whitespace (R74, R76). Trimming
the line first would change nothing. -/
def tokens : List Char → List (List Char)
  | [] => []
  | c :: cs =>
    if isSpace c then tokens cs
    else
      match cs with
      | [] => [[c]]
      | d :: _ =>
        if isSpace d then [c] :: tokens cs
        else
          match tokens cs with
          | [] => [[c]]
          | t :: ts => (c :: t) :: ts

/-! ### Operand tokens -/

/-- The value of a decimal digit; no other character is a digit (R77, D11). -/
def digitValue (c : Char) : Option Nat :=
  if 48 ≤ c.toNat ∧ c.toNat ≤ 57 then some (c.toNat - 48) else none

/-- Decimal digits after the value `acc` of those before them. -/
def digitsFrom : Nat → List Char → Option Nat
  | acc, [] => some acc
  | acc, c :: cs =>
    match digitValue c with
    | some d => digitsFrom (10 * acc + d) cs
    | none => none

/-- One or more decimal digits; leading zeros are accepted (R77, R78, D11). -/
def parseDigits : List Char → Option Nat
  | [] => none
  | c :: cs => digitsFrom 0 (c :: cs)

/-- The 16-bit value of an unsigned operand that is in range (R77). -/
def unsignedOf (n : Option Nat) : Option Word :=
  match n with
  | some k => if unsigned16Ok k then some (BitVec.ofNat 16 k) else none
  | none => none

/-- R77: an immediate or a stack offset: one optional `+`, no `-`, 0..65535. -/
def parseUnsigned : List Char → Option Word
  | '+' :: ds => unsignedOf (parseDigits ds)
  | ds => unsignedOf (parseDigits ds)

/-- The field of a signed jump offset that is in range (R64, R77). -/
def signedOf (c : Config) (n : Option Int) : Option Word :=
  match n with
  | some k => if signed16Ok k then some (offsetField c k) else none
  | none => none

/-- R77: a jump offset: one optional `+` or `-`, -32768..32767. -/
def parseOffset (c : Config) : List Char → Option Word
  | '-' :: ds => signedOf c ((parseDigits ds).map fun k => -(k : Int))
  | '+' :: ds => signedOf c ((parseDigits ds).map fun k => (k : Int))
  | ds => signedOf c ((parseDigits ds).map fun k => (k : Int))

/-- The register a number names (R11, R78). -/
def regOfNat (n : Nat) : Option Reg := if h : n < 16 then some ⟨n, h⟩ else none

/-- R78: a capital `R`, then digits that denote 0..15. -/
def parseReg : List Char → Option Reg
  | 'R' :: ds =>
    match parseDigits ds with
    | some n => regOfNat n
    | none => none
  | _ => none

/-! ### The assembler -/

/-- The kinds of ParseError (R79, D22, log 26). -/
inductive ParseErrorKind where
  | unknownMnemonic | wrongArity | badOperand
deriving DecidableEq, Repr

/-- A ParseError: its kind and the offending line, counted from 1 over all lines (R79). -/
structure ParseError where
  kind : ParseErrorKind
  line : Nat
deriving DecidableEq, Repr

/-- Two operand tokens, read by `f` and `g`; arity before operands (R79). -/
def parseTwo {α β : Type} (f : List Char → Option α) (g : List Char → Option β)
    (mk : α → β → Instr) : List (List Char) → Except ParseErrorKind Instr
  | [x, y] =>
    match f x, g y with
    | some a, some b => .ok (mk a b)
    | _, _ => .error .badOperand
  | _ => .error .wrongArity

/-- One operand token. -/
def parseOne {α : Type} (f : List Char → Option α) (mk : α → Instr) :
    List (List Char) → Except ParseErrorKind Instr
  | [x] =>
    match f x with
    | some a => .ok (mk a)
    | none => .error .badOperand
  | _ => .error .wrongArity

/-- No operand token. -/
def parseNone (i : Instr) : List (List Char) → Except ParseErrorKind Instr
  | [] => .ok i
  | _ :: _ => .error .wrongArity

/-- The operand tokens of a variant, in the order of R5 (R76). -/
def parseOperands (c : Config) (op : Opcode) (args : List (List Char)) :
    Except ParseErrorKind Instr :=
  match op with
  | .ret => parseNone .ret args
  | .loadImmediate => parseTwo parseUnsigned parseReg .loadImmediate args
  | .loadFromStack => parseTwo parseUnsigned parseReg .loadFromStack args
  | .copyRegToReg => parseTwo parseReg parseReg .copyRegToReg args
  | .storeToStack => parseTwo parseReg parseUnsigned .storeToStack args
  | .add => parseTwo parseReg parseReg .add args
  | .sub => parseTwo parseReg parseReg .sub args
  | .mul => parseTwo parseReg parseReg .mul args
  | .div => parseTwo parseReg parseReg .div args
  | .print => parseOne parseReg .print args
  | .jump => parseOne (parseOffset c) .jump args
  | .jumpIfTrue => parseOne (parseOffset c) .jumpIfTrue args
  | .jumpIfFalse => parseOne (parseOffset c) .jumpIfFalse args
  | .compareEqual => parseTwo parseReg parseReg .compareEqual args
  | .compareNotEqual => parseTwo parseReg parseReg .compareNotEqual args
  | .compareLess => parseTwo parseReg parseReg .compareLess args
  | .compareLessOrEqual => parseTwo parseReg parseReg .compareLessOrEqual args
  | .compareGreater => parseTwo parseReg parseReg .compareGreater args
  | .compareGreaterOrEqual => parseTwo parseReg parseReg .compareGreaterOrEqual args

/-- R74: a comment line begins with `#` (after trimming, log 15). -/
def isComment (token : List Char) : Bool := token.head? == some '#'

/-- One line of text (R74, R75, R76): none for a blank line or a comment, else its instruction. -/
def parseLine (c : Config) (line : List Char) : Except ParseErrorKind (Option Instr) :=
  match tokens line with
  | [] => .ok none
  | t :: args =>
    if isComment t then .ok none
    else
      match opcodeOfMnemonic t with
      | none => .error .unknownMnemonic
      | some op =>
        match parseOperands c op args with
        | .ok i => .ok (some i)
        | .error k => .error k

/-- The lines from number `n` on (R79): the first failing line decides, and there is no partial
result (R80). -/
def parseLines (c : Config) : Nat → List (List Char) → Except ParseError (List Instr)
  | _, [] => .ok []
  | n, l :: ls =>
    match parseLine c l with
    | .error k => .error ⟨k, n⟩
    | .ok none => parseLines c (n + 1) ls
    | .ok (some i) =>
      match parseLines c (n + 1) ls with
      | .error e => .error e
      | .ok p => .ok (i :: p)

/-- `parse(source_text)` (R74). -/
def parse (text : List Char) : Except ParseError (List Instr) :=
  parseLines Config.spec 1 (splitLines text)

/-! ### The disassembler -/

/-- The decimal digits of `n`, least fuel `n + 1`, without leading zeros (R81). -/
def decimalFuel : Nat → Nat → List Char
  | 0, _ => []
  | fuel + 1, n =>
    if n < 10 then [Char.ofNat (48 + n)]
    else decimalFuel fuel (n / 10) ++ [Char.ofNat (48 + n % 10)]

/-- The decimal digits of a natural number. -/
def decimal (n : Nat) : List Char := decimalFuel (n + 1) n

/-- The decimal text of an integer: `-` for a negative one and no `+` (R81). -/
def decimalInt (n : Int) : List Char :=
  if n < 0 then '-' :: decimal n.natAbs else decimal n.natAbs

/-- A register as `R` and its ordinal without leading zeros (R81). -/
def regText (r : Reg) : List Char := 'R' :: decimal r.val

/-- An immediate or a stack offset in decimal (R81). -/
def unsignedText (v : Word) : List Char := decimal v.toNat

/-- A jump offset in decimal (R81). -/
def offsetText (c : Config) (v : Word) : List Char := decimalInt (offsetValue c v)

/-- The operand tokens of an instruction, in the order of R5 (R81). -/
def operandTexts (c : Config) : Instr → List (List Char)
  | .ret => []
  | .loadImmediate imm d => [unsignedText imm, regText d]
  | .loadFromStack off d => [unsignedText off, regText d]
  | .copyRegToReg s d => [regText s, regText d]
  | .storeToStack s off => [regText s, unsignedText off]
  | .add a b => [regText a, regText b]
  | .sub a b => [regText a, regText b]
  | .mul a b => [regText a, regText b]
  | .div a b => [regText a, regText b]
  | .print r => [regText r]
  | .jump off => [offsetText c off]
  | .jumpIfTrue off => [offsetText c off]
  | .jumpIfFalse off => [offsetText c off]
  | .compareEqual a b => [regText a, regText b]
  | .compareNotEqual a b => [regText a, regText b]
  | .compareLess a b => [regText a, regText b]
  | .compareLessOrEqual a b => [regText a, regText b]
  | .compareGreater a b => [regText a, regText b]
  | .compareGreaterOrEqual a b => [regText a, regText b]

/-- The canonical line of an instruction: the mnemonic, then each operand preceded by one space
(R81, D20). -/
def formatInstr (c : Config) (i : Instr) : List Char :=
  mnemonic i.opcode ++ (operandTexts c i).flatMap (fun t => ' ' :: t)

/-- `format(instructions)`, the entry point `disassemble` (R81): one line per instruction. -/
def format (p : List Instr) : List (List Char) := p.map (formatInstr Config.spec)

/-- Lines as one text, each ended by a line feed. -/
def joinLines (lines : List (List Char)) : List Char := lines.flatMap (fun l => l ++ ['\n'])

end Sys2Proof.Machine
end

