-- ==== Sys2Proof/Machine/Boot.lean ====
section
/-! DEFINITION. The host's side of the interface (`00_scope.md` R4, `70_reset_and_hazards.md` R190 to
R193): reset, the ways a program comes to the program store, and the outputs. -/

namespace Sys2Proof.Machine

/-- The event `reset` (R190): every piece of state at its reset value; the program store "is not
state and is not touched by reset". -/
def State.hostReset (s : State) : State := { State.reset with prog := s.prog }

/-- Why no run starts (R72, R80, R191). -/
inductive BootError where
  /-- the byte stream does not decode (R68) -/
  | decode (e : DecodeError)
  /-- the text does not assemble (R79) -/
  | parse (e : ParseError)
  /-- LEN exceeds PROG_LEN_MAX (R3, D9) -/
  | programTooLong (len : Nat)
deriving DecidableEq, Repr

/-- R191 steps 2 and 3: place the instruction values in a store of size `progLenMax`, then reset. -/
def boot (progLenMax : Nat) (p : List Instr) : Except BootError State :=
  if programFits progLenMax p then .ok { State.reset with prog := p }
  else .error (.programTooLong p.length)

/-- R191 from bytes: the whole stream is decoded first, and nothing is run if it fails (R72). -/
def bootBytes (progLenMax : Nat) (bytes : List Byte) : Except BootError State :=
  match decode bytes with
  | .ok p => boot progLenMax p
  | .error e => .error (.decode e)

/-- R191 from assembly text (R80). -/
def bootText (progLenMax : Nat) (text : List Char) : Except BootError State :=
  match parse text with
  | .ok p => boot progLenMax p
  | .error e => .error (.parse e)

/-- LEN, the number of instructions in the program store (R20). -/
def State.len (s : State) : Nat := s.prog.length

/-- The output `status`: meaningful when Halted (R4). -/
def State.statusOut (s : State) : Option Word :=
  match s.run with
  | .halted w => some w
  | _ => none

/-- The output `fault_kind`: its code (R160), meaningful when Faulted (R4). -/
def State.faultKindOut (s : State) : Option Nat :=
  match s.run with
  | .faulted k _ => some (Config.spec.faultCode k)
  | _ => none

/-- The output `fault_index`: meaningful when Faulted (R4). -/
def State.faultIndexOut (s : State) : Option Nat :=
  match s.run with
  | .faulted _ i => some i
  | _ => none

end Sys2Proof.Machine
end

