-- ==== Sys2Proof/Safety.lean ====
section
/-! DEFINITION. What claims about runs speak of: what the host may observe of a state, what a safe
state is, the invariant of the machine, and which registers an instruction reads and writes. -/

namespace Sys2Proof

/-- The registers an instruction reads: the table of R12. -/
def Instr.reads : Instr → List Reg
  | .ret => [0]
  | .loadImmediate _ _ => []
  | .loadFromStack _ _ => []
  | .copyRegToReg src _ => [src]
  | .storeToStack src _ => [src]
  | .add a b | .sub a b | .mul a b | .div a b => [a, b]
  | .print reg => [reg]
  | .jump _ | .jumpIfTrue _ | .jumpIfFalse _ => []
  | .compareEqual a b | .compareNotEqual a b | .compareLess a b => [a, b]
  | .compareLessOrEqual a b | .compareGreater a b | .compareGreaterOrEqual a b => [a, b]

/-- The register an instruction writes, if any: the table of R12. -/
def Instr.writes : Instr → Option Reg
  | .loadImmediate _ dest => some dest
  | .loadFromStack _ dest => some dest
  | .copyRegToReg _ dest => some dest
  | .add _ b | .sub _ b | .mul _ b | .div _ b => some b
  | .ret | .storeToStack _ _ | .print _ => none
  | .jump _ | .jumpIfTrue _ | .jumpIfFalse _ => none
  | .compareEqual _ _ | .compareNotEqual _ _ | .compareLess _ _ => none
  | .compareLessOrEqual _ _ | .compareGreater _ _ | .compareGreaterOrEqual _ _ => none

/-- The six compares: the only instructions that write the condition flag (R17). -/
def Instr.isCompare : Instr → Bool
  | .compareEqual _ _ | .compareNotEqual _ _ | .compareLess _ _ => true
  | .compareLessOrEqual _ _ | .compareGreater _ _ | .compareGreaterOrEqual _ _ => true
  | .ret | .loadImmediate _ _ | .loadFromStack _ _ | .copyRegToReg _ _ | .storeToStack _ _ => false
  | .add _ _ | .sub _ _ | .mul _ _ | .div _ _ | .print _ => false
  | .jump _ | .jumpIfTrue _ | .jumpIfFalse _ => false

/-- The conditional jumps: the only instructions that read the condition flag (R17). -/
def Instr.isConditionalJump : Instr → Bool
  | .jumpIfTrue _ | .jumpIfFalse _ => true
  | .ret | .loadImmediate _ _ | .loadFromStack _ _ | .copyRegToReg _ _ | .storeToStack _ _ => false
  | .add _ _ | .sub _ _ | .mul _ _ | .div _ _ | .print _ | .jump _ => false
  | .compareEqual _ _ | .compareNotEqual _ _ | .compareLess _ _ => false
  | .compareLessOrEqual _ _ | .compareGreater _ _ | .compareGreaterOrEqual _ _ => false

end Sys2Proof

namespace Sys2Proof.Machine

/-- `k` steps from `s`, as the host issues them (R191 step 4). -/
def runFor (k : Nat) (s : State) : Result := Host.Core.run Sys2Proof.core k s

/-- What the host may observe (R4, R54, R165): the output sequence always; the status of a Halted
state; the kind and index of a Faulted one. Of a Faulted state nothing else is exposed: a claim may
read no register, stack word, flag or instruction pointer there (D14, U4, log 18). -/
inductive Observation where
  | running (out : List Word)
  | halted (status : Word) (out : List Word)
  | faulted (kind : FaultKind) (index : Nat) (out : List Word)
deriving DecidableEq, Repr

/-- The observation of a state. -/
def State.observe (s : State) : Observation :=
  match s.run with
  | .running => .running s.out
  | .halted w => .halted w s.out
  | .faulted k i => .faulted k i s.out

/-- A terminal run state: Halted or Faulted (R18). -/
def State.terminal (s : State) : Bool :=
  match s.run with
  | .running => false
  | _ => true

/-- A safe state: the run has raised no execution fault. -/
def State.safe (s : State) : Bool :=
  match s.run with
  | .faulted _ _ => false
  | _ => true

/-- R14, R164: the instruction pointer is in 0..LEN; of a Faulted state, whose instruction pointer
no claim may read, the recorded index is that of an instruction of the program. -/
def State.pcLegal (s : State) : Bool :=
  match s.run with
  | .faulted _ i => decide (i < s.prog.length)
  | _ => decide (s.pc ≤ s.prog.length)

/-- The machine's invariant: the stack memory is in canonical form with every index below 65536
(R19), and the instruction pointer is legal. -/
def State.inv (s : State) : Bool := Memory.wf s.stack && s.pcLegal

/-- The offset of the jump that `i` takes in the state `s`, or none where it takes none (R141 to
R143). -/
def jumpTaken (i : Instr) (s : State) : Option Word :=
  match i with
  | .jump offset => some offset
  | .jumpIfTrue offset => if s.flag = true then some offset else none
  | .jumpIfFalse offset => if s.flag = false then some offset else none
  | .ret | .loadImmediate _ _ | .loadFromStack _ _ | .copyRegToReg _ _ | .storeToStack _ _ => none
  | .add _ _ | .sub _ _ | .mul _ _ | .div _ _ | .print _ => none
  | .compareEqual _ _ | .compareNotEqual _ _ | .compareLess _ _ => none
  | .compareLessOrEqual _ _ | .compareGreater _ _ | .compareGreaterOrEqual _ _ => none

/-- A target outside 0..LEN (R144). -/
def TargetOutside (s : State) (offset : Word) : Prop :=
  jumpTarget Config.spec s.pc offset < 0 ∨
    (s.prog.length : Int) < jumpTarget Config.spec s.pc offset

/-! ### What a statement says is unchanged

Every stack word is compared through `Memory.read`, the model's read of one word. -/

/-- Every stack word reads as before (R42). -/
def SameStack (s t : State) : Prop := ∀ addr, t.stack.read addr = s.stack.read addr

/-- Every register but `d` reads as before, and `d` reads `v` (R12, R13). -/
def OnlyRegister (s t : State) (d : Reg) (v : Word) : Prop :=
  ∀ r, t.readReg r = if r = d then v else s.readReg r

/-- Every register reads as before. -/
def SameRegisters (s t : State) : Prop := ∀ r, t.readReg r = s.readReg r

/-- The whole effect of an instruction that writes `v` to register `d` and nothing else: every other
register, the flag, the stack, the output, the run state and the program store are as before, and
the instruction pointer advances by one (R13, R15). -/
def WritesRegister (s t : State) (d : Reg) (v : Word) : Prop :=
  OnlyRegister s t d v ∧ t.pc = s.pc + 1 ∧ t.flag = s.flag ∧ t.run = s.run ∧ SameStack s t ∧
    t.out = s.out ∧ t.prog = s.prog

/-- The whole effect of an instruction that writes the flag and nothing else (R13, R15, R17). -/
def WritesFlag (s t : State) (b : Bool) : Prop :=
  t.flag = b ∧ t.pc = s.pc + 1 ∧ SameRegisters s t ∧ t.run = s.run ∧ SameStack s t ∧
    t.out = s.out ∧ t.prog = s.prog

/-- The whole effect of an instruction that sets the instruction pointer and nothing else. -/
def MovesTo (s t : State) (target : Nat) : Prop :=
  t.pc = target ∧ t.flag = s.flag ∧ SameRegisters s t ∧ t.run = s.run ∧ SameStack s t ∧
    t.out = s.out ∧ t.prog = s.prog

end Sys2Proof.Machine
end

