-- ==== Sys2Proof/Certificates/Slice0/Obligations.lean ====
section
/-! DEFINITION. The statements for the provers. Nothing is proved here. A statement about a state
after an execution fault reads its observation alone (R165, log 18). -/

open Sys2Proof Sys2Proof.Machine

/-! ### Wire format -/

/-- Byte strings written out from the encodings of `30_encoding.md` (R62, R63, R66) decode to the
instructions they stand for, and the document's unused tag 0x1F fails. The tag numbers, the byte
order and two's complement are the spec's decisions D1, D2, D3 (logs 4, 5, 6). -/
def Obligations.DecodeReadsTheSpecsByteStrings : Prop :=
  decode [] = .ok [] ∧
  decode [0x00, 0x00, 0x00] = .ok [.ret, .ret, .ret] ∧
  decode [0x01, 0xE8, 0x03, 0x00] = .ok [.loadImmediate 1000 0] ∧
  decode [0x02, 0x64, 0x00, 0x00] = .ok [.loadFromStack 100 0] ∧
  decode [0x03, 0x00, 0x0F] = .ok [.copyRegToReg 0 15] ∧
  decode [0x04, 0x0F, 0xFF, 0xFF] = .ok [.storeToStack 15 65535] ∧
  decode [0x08, 0x01, 0x02] = .ok [.div 1 2] ∧
  decode [0x09, 0x0F] = .ok [.print 15] ∧
  decode [0x0A, 0xFB, 0xFF] = .ok [.jump (-5)] ∧
  decode [0x0C, 0x03, 0x00] = .ok [.jumpIfFalse 3] ∧
  decode [0x12, 0x0F, 0x0E] = .ok [.compareGreaterOrEqual 15 14] ∧
  decode [0x1F] = .error (.unknownOpcode 0 0x1F)

/-- Decoding an encoded program gives the program back (R70): under every configuration whose tags
are unique, in either byte order, and so under the spec's. The tags and the byte order of the
second clause are the spec's decisions D1 and D2 (logs 4, 5). -/
def Obligations.DecodeInvertsEncode : Prop :=
  (∀ (c : Config) (p : List Instr), c.TagsUnique → decodeWith c (encodeWith c p) = .ok p) ∧
  ∀ p : List Instr, decode (encode p) = .ok p

/-- Encoding a decoded program gives the bytes back (R70, second sentence, which the spec marks as
derived): no byte of a stream is dropped, and no two streams decode to one program. -/
def Obligations.EncodeInvertsDecode : Prop :=
  ∀ (c : Config) (bytes : List Byte) (p : List Instr),
    decodeWith c bytes = .ok p → encodeWith c p = bytes

/-- After any valid program, an unassigned tag fails the whole stream with its byte offset and value
(R68, R71, R72), whatever follows it. The tags 0x13 to 0xFF are unassigned by decision D1 (log 4);
what the error carries is decision D12 (log 16). -/
def Obligations.DecodeFailsOnAnUnassignedTag : Prop :=
  ∀ (p : List Instr) (tag : Byte) (rest : List Byte), 0x13 ≤ tag.toNat →
    decode (encode p ++ tag :: rest) = .error (.unknownOpcode (encode p).length tag)

/-- After any valid program, an instruction cut short fails the whole stream with the byte offset of
its tag (R68, R72; the name and the context are decision D12, log 16). -/
def Obligations.DecodeFailsOnATruncatedInstruction : Prop :=
  ∀ (p : List Instr) (i : Instr) (k : Nat), 0 < k → k < (encode [i]).length →
    decode (encode p ++ (encode [i]).take k) = .error (.truncated (encode p).length)

/-- After any valid program, a register byte of 16 or more fails the whole stream with its own byte
offset and value, in every format that has a register, the left register byte first (R65, R68; the
kind and the order of checks are decision D12, log 16). -/
def Obligations.DecodeFailsOnABadRegisterByte : Prop :=
  ∀ (p : List Instr) (op : Opcode) (q x y : Byte) (r : Reg) (rest : List Byte), 16 ≤ q.toNat →
    (opcodeFormat op = .ir →
      decode (encode p ++ specTag op :: x :: y :: q :: rest) =
        .error (.invalidRegister ((encode p).length + 3) q)) ∧
    (opcodeFormat op = .ri →
      decode (encode p ++ specTag op :: q :: x :: y :: rest) =
        .error (.invalidRegister ((encode p).length + 1) q)) ∧
    (opcodeFormat op = .rr →
      decode (encode p ++ specTag op :: q :: x :: rest) =
        .error (.invalidRegister ((encode p).length + 1) q)) ∧
    (opcodeFormat op = .rr →
      decode (encode p ++ specTag op :: byteOfReg r :: q :: rest) =
        .error (.invalidRegister ((encode p).length + 2) q)) ∧
    (opcodeFormat op = .r →
      decode (encode p ++ specTag op :: q :: rest) =
        .error (.invalidRegister ((encode p).length + 1) q))

/-- The length of an encoded instruction is the one its first byte gives, nothing after the first
byte changing it (R67, which the spec marks as derived). -/
def Obligations.FirstByteGivesTheLength : Prop :=
  ∀ i : Instr, ∃ tag operands, encode [i] = tag :: operands ∧
    tagLength Config.spec tag = some (operands.length + 1) ∧ operands.length + 1 = i.byteLength

/-! ### From bytes to a step -/

/-- A step runs the decoded instruction: where the loaded bytes decode and the instruction pointer
indexes an instruction of the program, a Running machine's step is `exec` of that instruction, and
nothing is added around it (R24, R68). -/
def Obligations.StepRunsTheDecodedInstruction : Prop :=
  ∀ (bytes : List Byte) (p : List Instr) (s : State) (i : Instr),
    decode bytes = .ok p → s.prog = p → s.run = .running → p[s.pc]? = some i →
    i.wellFormed = true ∧ step s = exec i s

/-- The k-th instruction of a loaded byte stream becomes `prog[k]` and is what a step at `pc = k`
runs (R60, R72, R24). That PROG_LEN_MAX bounds what is loaded is decision D9 (log 12). -/
def Obligations.LoadedStreamRunsItsKthInstruction : Prop :=
  ∀ (front back : List Instr) (i : Instr) (progLenMax : Nat),
    front.length + 1 + back.length ≤ progLenMax →
    ∃ s, bootBytes progLenMax (encode front ++ encode [i] ++ encode back) = .ok s ∧
      s.prog[front.length]? = some i ∧
      ∀ t : State, t.prog = s.prog → t.run = .running → t.pc = front.length → step t = exec i t

/-- The machine starts only on a stream that decodes whole, from the reset values with that program
in the store; a failing stream gives its decode error (R72, R191; D9 and D19, logs 12, 23). -/
def Obligations.BootLoadsWholeStreamsOnly : Prop :=
  ∀ (progLenMax : Nat) (bytes : List Byte),
    (∀ s, bootBytes progLenMax bytes = .ok s →
      encode s.prog = bytes ∧ s.prog.length ≤ progLenMax ∧
        s = { State.reset with prog := s.prog }) ∧
    (∀ e, decode bytes = .error e → bootBytes progLenMax bytes = .error (.decode e))

/-- The harness's placed word is what the next step runs (the model's own loader, log 31). -/
def Obligations.PlacedWordRunsNext : Prop :=
  ∀ (s : State) (nbits w : Nat) (i : Instr), decodeTableWord nbits w = some i →
    step (s.withFetchWord nbits w) = exec i (s.withFetchWord nbits w) ∧
      (s.withFetchWord nbits w).pc = s.pc ∧ SameRegisters s (s.withFetchWord nbits w)

/-! ### Assembly text -/

/-- Assembling the disassembly of any program gives the program back (R81; the mnemonics, literals
and line format are decisions D10, D11, D20, logs 13, 14, 24). -/
def Obligations.ParseInvertsFormat : Prop :=
  ∀ p : List Instr, parse (joinLines (format p)) = .ok p

/-- A failing line decides the error with its 1-based number whatever follows it, and no partial
result is returned (R79, R80; decision D22, log 26). -/
def Obligations.ParseFailsAtTheFirstBadLine : Prop :=
  ∀ (p : List Instr) (bad rest : List Char) (k : ParseErrorKind), '\n' ∉ bad →
    parseLine Config.spec bad = .error k →
    parse (joinLines (format p) ++ bad ++ '\n' :: rest) = .error ⟨k, p.length + 1⟩

/-! ### Reset and the invariant -/

/-- The reset values of R28, from any state, and the program store untouched by the event (R190). -/
def Obligations.ResetPutsEveryPieceAtItsValue : Prop :=
  ∀ s : State,
    (∀ r, s.hostReset.readReg r = 0) ∧ (∀ addr, s.hostReset.stack.read addr = 0) ∧
    s.hostReset.pc = 0 ∧ s.hostReset.flag = false ∧ s.hostReset.run = .running ∧
    s.hostReset.out = [] ∧ s.hostReset.prog = s.prog

/-- The invariant holds right after reset, whatever program is loaded. -/
def Obligations.ResetMeetsTheInvariant : Prop :=
  State.reset.inv = true ∧
  (∀ s : State, s.hostReset.inv = true) ∧
  ∀ (progLenMax : Nat) (p : List Instr) (s : State), boot progLenMax p = .ok s → s.inv = true

/-- Every step keeps the invariant: the stack memory stays in canonical form below 65536 words, the
instruction pointer stays in 0..LEN (R14, R16), and a recorded fault index is an instruction's. -/
def Obligations.StepKeepsTheInvariant : Prop :=
  ∀ s t : State, s.inv = true → step s = .next t → t.inv = true

/-- From every state of the invariant, any number of steps answers a next state: every instruction
completes, halts or takes its fault, and the model never stops (`93_implementation_defined.md`,
end of part 1). -/
def Obligations.RunsFromLegalStatesNeverStop : Prop :=
  ∀ (s : State) (k : Nat), s.inv = true → ∃ t, runFor k s = .next t ∧ t.inv = true

/-- Every instruction answers a next state in every state. -/
def Obligations.EveryInstructionAnswersANextState : Prop :=
  ∀ (i : Instr) (s : State), ∃ t, exec i s = .next t

/-! ### Return and the ends of a run -/

/-- Return (R100): the run state becomes Halted with all 16 bits of register 0, and nothing else
changes. The full width and the unchanged `pc` are decisions D16 and D17 (logs 20, 21). -/
def Obligations.ReturnHaltsWithRegisterZero : Prop :=
  ∀ s : State, ∃ t, exec .ret s = .next t ∧
    t.run = .halted (s.readReg 0) ∧ t.statusOut = some (s.readReg 0) ∧ t.pc = s.pc ∧
    t.flag = s.flag ∧ SameRegisters s t ∧ SameStack s t ∧ t.out = s.out ∧ t.prog = s.prog

/-- Running off the end (R25): a step at `pc = LEN` halts with FALLOFF_STATUS and writes nothing
else. The status 0 is decision D7 (log 10), named here by its configuration field. -/
def Obligations.RunningOffTheEndHalts : Prop :=
  ∀ s : State, s.run = .running → s.pc = s.prog.length → ∃ t, step s = .next t ∧
    t.run = .halted (falloffStatus Config.spec.falloffStatus s) ∧ t.pc = s.pc ∧
    t.flag = s.flag ∧ SameRegisters s t ∧ SameStack s t ∧ t.out = s.out ∧ t.prog = s.prog

/-- A Running state with `pc` above LEN, which R14 rules out, stops the model (the model's choice,
log 28). -/
def Obligations.InstructionPointerAboveTheProgramStops : Prop :=
  ∀ s : State, s.run = .running → s.prog.length < s.pc → step s = .fault .pcOutsideProgram

/-- Halted and Faulted are terminal (R18): any number of steps changes nothing (decision D21,
log 25). -/
def Obligations.TerminalStatesAreFinal : Prop :=
  ∀ (s : State) (k : Nat), s.terminal = true → runFor k s = .next s

/-- A step leaves Running in exactly the ways of R193: a Return, the end of the program, a division
by zero, or a taken jump outside 0..LEN (the last by decision D8, log 11; the fall-off status by
decision D7, log 10). -/
def Obligations.RunEndsOnlyByReturnEndOrFault : Prop :=
  ∀ s t : State, s.run = .running → step s = .next t →
    t.run = .running ∨
    (s.prog[s.pc]? = some .ret ∧ t.run = .halted (s.readReg 0)) ∨
    (s.pc = s.prog.length ∧ t.run = .halted (falloffStatus Config.spec.falloffStatus s)) ∨
    (∃ a b, s.prog[s.pc]? = some (.div a b) ∧ s.readReg a = 0 ∧
      t.run = .faulted .divisionByZero s.pc) ∨
    (∃ i offset, s.prog[s.pc]? = some i ∧ jumpTaken i s = some offset ∧ TargetOutside s offset ∧
      t.run = .faulted .outOfBounds s.pc)

/-! ### Data movement -/

/-- LoadImmediate (R110): it writes the constant and nothing else, and advances. -/
def Obligations.LoadImmediateWritesTheConstant : Prop :=
  ∀ (immediate : Word) (dest : Reg) (s : State),
    ∃ t, exec (.loadImmediate immediate dest) s = .next t ∧ WritesRegister s t dest immediate

/-- LoadFromStack (R111, R41): every offset completes; it reads the addressed word into the register
and writes nothing else. -/
def Obligations.LoadFromStackReadsTheAddressedWord : Prop :=
  ∀ (offset : Word) (dest : Reg) (s : State),
    ∃ t, exec (.loadFromStack offset dest) s = .next t ∧
      WritesRegister s t dest (s.stack.read offset.toNat)

/-- CopyRegToReg (R112): the second register takes the first one's old value; nothing else changes. -/
def Obligations.CopyRegToRegCopies : Prop :=
  ∀ (src dest : Reg) (s : State),
    ∃ t, exec (.copyRegToReg src dest) s = .next t ∧ WritesRegister s t dest (s.readReg src)

/-- StoreToStack (R113, R41, R42): every offset completes; exactly the word at the effective address
changes, to the register's value. The premise is the canonical form of the stack memory, which
every step keeps (`StepKeepsTheInvariant`). -/
def Obligations.StoreToStackWritesOneWord : Prop :=
  ∀ (src : Reg) (offset : Word) (s : State), Memory.wf s.stack = true →
    ∃ t, exec (.storeToStack src offset) s = .next t ∧
      (∀ addr, t.stack.read addr =
        if addr = effectiveAddress offset then s.readReg src else s.stack.read addr) ∧
      effectiveAddress offset = offset.toNat ∧
      t.pc = s.pc + 1 ∧ t.flag = s.flag ∧ t.run = s.run ∧ SameRegisters s t ∧ t.out = s.out ∧
      t.prog = s.prog

/-- The stack memory is touched by LoadFromStack and StoreToStack alone (R46): no other instruction
changes a word; no instruction but those two depends on the memory; and a load depends on the one
word it addresses. -/
def Obligations.OnlyLoadsAndStoresTouchTheStack : Prop :=
  (∀ (i : Instr) (s t : State), exec i s = .next t → t.safe = true →
    (∀ src offset, i ≠ .storeToStack src offset) → SameStack s t) ∧
  (∀ (i : Instr) (s t : State) (m : Memory), exec i s = .next t →
    (∀ offset dest, i ≠ .loadFromStack offset dest) →
    (∀ src offset, i ≠ .storeToStack src offset) →
    ∃ t', exec i { s with stack := m } = .next t' ∧ t'.observe = t.observe ∧
      (t.safe = true → t' = { t with stack := m })) ∧
  (∀ (offset : Word) (dest : Reg) (s t : State) (m : Memory),
    exec (.loadFromStack offset dest) s = .next t →
    m.read (effectiveAddress offset) = s.stack.read (effectiveAddress offset) →
    exec (.loadFromStack offset dest) { s with stack := m } = .next { t with stack := m })

/-- A word keeps its value over any run of a program that holds no store to it (R42, R49). -/
def Obligations.WordKeepsItsValueWithoutAStoreToIt : Prop :=
  ∀ (s t : State) (k : Nat) (offset : Word), Memory.wf s.stack = true →
    (∀ src, Instr.storeToStack src offset ∉ s.prog) → runFor k s = .next t → t.safe = true →
    t.stack.read (effectiveAddress offset) = s.stack.read (effectiveAddress offset)

/-- A load returns what the latest store to the same word stored, and another word's load is not
affected by it (R42). -/
def Obligations.LoadReturnsTheStoredWord : Prop :=
  ∀ (src dest : Reg) (offset other : Word) (s t u : State), Memory.wf s.stack = true →
    exec (.storeToStack src offset) s = .next t →
    exec (.loadFromStack other dest) t = .next u →
    u.readReg dest =
      if other = offset then s.readReg src else s.stack.read (effectiveAddress other)

/-- Two canonical stack memories that read alike at every index are the same data (the model's
representation, log 3). -/
def Obligations.CanonicalMemoriesAreEqualWhenTheyReadAlike : Prop :=
  ∀ m n : Memory, m.wf = true → n.wf = true → (∀ addr, m.read addr = n.read addr) → m = n

/-! ### Arithmetic -/

/-- Add (R121): `x[b]` becomes the sum modulo 65536, and nothing else changes. The wrap is decision
D4 (log 7). -/
def Obligations.AddWritesTheSum : Prop :=
  ∀ (a b : Reg) (s : State), ∃ (t : State) (v : Word), exec (.add a b) s = .next t ∧
    v.toNat = ((s.readReg b).toNat + (s.readReg a).toNat) % 65536 ∧ WritesRegister s t b v

/-- Sub (R122): `x[b]` becomes `x[b] - x[a]` modulo 65536, and nothing else changes. The wrap is
decision D4 (log 7). -/
def Obligations.SubWritesTheDifference : Prop :=
  ∀ (a b : Reg) (s : State), ∃ (t : State) (v : Word), exec (.sub a b) s = .next t ∧
    (v.toNat : Int) = (((s.readReg b).toNat : Int) - (s.readReg a).toNat) % 65536 ∧
    WritesRegister s t b v

/-- Mul (R123): `x[b]` becomes the low 16 bits of the product, and nothing else changes. The wrap is
decision D4 (log 7). -/
def Obligations.MulWritesTheProduct : Prop :=
  ∀ (a b : Reg) (s : State), ∃ (t : State) (v : Word), exec (.mul a b) s = .next t ∧
    v.toNat = ((s.readReg b).toNat * (s.readReg a).toNat) % 65536 ∧ WritesRegister s t b v

/-- Div with a divisor other than 0 (R124): `x[b]` becomes the floor of `x[b] / x[a]`, and nothing
else changes. The floor is decision D5 (log 8). -/
def Obligations.DivWritesTheQuotient : Prop :=
  ∀ (a b : Reg) (s : State), s.readReg a ≠ 0 →
    ∃ (t : State) (v : Word), exec (.div a b) s = .next t ∧
      v.toNat = (s.readReg b).toNat / (s.readReg a).toNat ∧ WritesRegister s t b v

/-- Div with divisor 0, whatever the dividend (R124, R164): the run state becomes
Faulted(DivisionByZero, index of the Div), and the output sequence stays. The code 2 on
`fault_kind` is decision D13 (log 17). -/
def Obligations.DivByZeroFaults : Prop :=
  ∀ (a b : Reg) (s : State), s.readReg a = 0 → ∃ t, exec (.div a b) s = .next t ∧
    t.observe = .faulted .divisionByZero s.pc s.out ∧
    t.faultKindOut = some 2 ∧ t.faultIndexOut = some s.pc

/-- DivisionByZero is raised by Div, and only by Div, exactly when its first operand holds 0 (R162). -/
def Obligations.DivisionByZeroIsRaisedByDivAlone : Prop :=
  ∀ (i : Instr) (s t : State), s.safe = true → exec i s = .next t →
    ((∃ n, t.run = .faulted .divisionByZero n) ↔ ∃ a b, i = .div a b ∧ s.readReg a = 0)

/-- Sub and then Add of the same register restores every register (R125, which rests on the wrap of
decision D4, log 7). -/
def Obligations.AddUndoesSub : Prop :=
  ∀ (a b : Reg) (s t u : State), a ≠ b → exec (.sub a b) s = .next t →
    exec (.add a b) t = .next u → SameRegisters s u

/-- The remainder by Copy, Div, Mul and Sub (R125, program P3): `p - q * floor(p / q)` (decisions D4
and D5, logs 7, 8). -/
def Obligations.CopyDivMulSubGiveTheRemainder : Prop :=
  ∀ (a b c : Reg) (s : State), a ≠ b → a ≠ c → b ≠ c → s.readReg a ≠ 0 →
    ∃ t u v w, exec (.copyRegToReg b c) s = .next t ∧ exec (.div a c) t = .next u ∧
      exec (.mul a c) u = .next v ∧ exec (.sub c b) v = .next w ∧
      (w.readReg b).toNat = (s.readReg b).toNat % (s.readReg a).toNat

/-- Where the exact result fits 16 bits, the two overflow policies the document admits agree
(decision D4's side condition, log 7). -/
def Obligations.OverflowPoliciesAgreeWhereTheResultFits : Prop :=
  ∀ (c : Config) (op : Int → Int → Int) (a b : Reg) (s : State),
    0 ≤ op (s.readReg b).toNat (s.readReg a).toNat →
    op (s.readReg b).toNat (s.readReg a).toNat ≤ 65535 →
    accumulate { c with overflowPolicy := .fault } op a b s =
      accumulate { c with overflowPolicy := .wrap } op a b s

/-! ### Print -/

/-- Print (R130): the output sequence grows by the register's value, and nothing else changes. That
the channel is always ready is decision D15 (log 19). -/
def Obligations.PrintAppendsTheRegister : Prop :=
  ∀ (reg : Reg) (s : State), ∃ t, exec (.print reg) s = .next t ∧
    t.out = s.out ++ [s.readReg reg] ∧ t.pc = s.pc + 1 ∧ t.flag = s.flag ∧ t.run = s.run ∧
    SameRegisters s t ∧ SameStack s t ∧ t.prog = s.prog

/-- Over any run the output sequence only grows, by at most one value a step; and no instruction but
Print changes it (R21). -/
def Obligations.OutputOnlyGrows : Prop :=
  (∀ (s t : State) (k : Nat), runFor k s = .next t →
    ∃ new : List Word, t.out = s.out ++ new ∧ new.length ≤ k) ∧
  ∀ (i : Instr) (s t : State), exec i s = .next t → (∀ reg, i ≠ .print reg) → t.out = s.out

/-! ### Jumps -/

/-- Jump to a target in 0..LEN (R140, R141): the instruction pointer becomes `pc + 1 + off`, and
nothing else changes. -/
def Obligations.JumpGoesToItsTarget : Prop :=
  ∀ (offset : Word) (s : State) (target : Nat),
    (target : Int) = (s.pc : Int) + 1 + asSint16 offset → target ≤ s.prog.length →
    ∃ t, exec (.jump offset) s = .next t ∧ MovesTo s t target

/-- JumpIfTrue (R142): with the flag true and a target in 0..LEN it goes to `pc + 1 + off`; with the
flag false it advances by one whatever its offset (decision D8, log 11). -/
def Obligations.JumpIfTrueFollowsTheFlag : Prop :=
  ∀ (offset : Word) (s : State),
    (∀ target : Nat, s.flag = true → (target : Int) = (s.pc : Int) + 1 + asSint16 offset →
      target ≤ s.prog.length →
      ∃ t, exec (.jumpIfTrue offset) s = .next t ∧ MovesTo s t target) ∧
    (s.flag = false → ∃ t, exec (.jumpIfTrue offset) s = .next t ∧ MovesTo s t (s.pc + 1))

/-- JumpIfFalse (R143): with the flag false and a target in 0..LEN it goes to `pc + 1 + off`; with
the flag true it advances by one whatever its offset (decision D8, log 11). -/
def Obligations.JumpIfFalseFollowsTheFlag : Prop :=
  ∀ (offset : Word) (s : State),
    (∀ target : Nat, s.flag = false → (target : Int) = (s.pc : Int) + 1 + asSint16 offset →
      target ≤ s.prog.length →
      ∃ t, exec (.jumpIfFalse offset) s = .next t ∧ MovesTo s t target) ∧
    (s.flag = true → ∃ t, exec (.jumpIfFalse offset) s = .next t ∧ MovesTo s t (s.pc + 1))

/-- A taken jump whose target lies below 0 or above LEN takes the fault OutOfBounds at its own index,
and the output sequence stays (R144, R164; decision D8, log 11; the code 1 is decision D13,
log 17). -/
def Obligations.TakenJumpOutsideTheProgramFaults : Prop :=
  ∀ (i : Instr) (offset : Word) (s : State), jumpTaken i s = some offset →
    ((s.pc : Int) + 1 + asSint16 offset < 0 ∨
      (s.prog.length : Int) < (s.pc : Int) + 1 + asSint16 offset) →
    ∃ t, exec i s = .next t ∧ t.observe = .faulted .outOfBounds s.pc s.out ∧
      t.faultKindOut = some 1 ∧ t.faultIndexOut = some s.pc

/-- OutOfBounds is raised by a taken jump outside 0..LEN and by nothing else: no register or stack
access raises it (R161; decision D8, log 11). -/
def Obligations.OutOfBoundsIsRaisedByTakenJumpsAlone : Prop :=
  ∀ (i : Instr) (s t : State), s.safe = true → exec i s = .next t →
    ((∃ n, t.run = .faulted .outOfBounds n) ↔
      ∃ offset, jumpTaken i s = some offset ∧ TargetOutside s offset)

/-- How each instruction moves the instruction pointer where it raises no fault: the table of R15.
That Return leaves it is decision D17 (log 21). -/
def Obligations.InstructionPointerMovesAsTheTableSays : Prop :=
  ∀ (i : Instr) (s t : State), exec i s = .next t → t.safe = true →
    (i = .ret → t.pc = s.pc) ∧
    (∀ offset, jumpTaken i s = some offset → (t.pc : Int) = (s.pc : Int) + 1 + asSint16 offset) ∧
    (i ≠ .ret → jumpTaken i s = none → t.pc = s.pc + 1)

/-! ### Compares -/

/-- CompareEqual (R151): the flag becomes the truth of `x[a] = x[b]`, and nothing else changes. -/
def Obligations.CompareEqualSetsTheFlag : Prop :=
  ∀ (a b : Reg) (s : State), ∃ t, exec (.compareEqual a b) s = .next t ∧
    WritesFlag s t (decide (s.readReg a = s.readReg b))

/-- CompareNotEqual (R152): the flag becomes the truth of `x[a] ≠ x[b]`, and nothing else changes. -/
def Obligations.CompareNotEqualSetsTheFlag : Prop :=
  ∀ (a b : Reg) (s : State), ∃ t, exec (.compareNotEqual a b) s = .next t ∧
    WritesFlag s t (decide (s.readReg a ≠ s.readReg b))

/-- CompareLess (R153): the flag becomes the truth of `x[a] < x[b]`, unsigned by decision D6 (log 9),
and nothing else changes. -/
def Obligations.CompareLessSetsTheFlag : Prop :=
  ∀ (a b : Reg) (s : State), ∃ t, exec (.compareLess a b) s = .next t ∧
    WritesFlag s t (decide ((s.readReg a).toNat < (s.readReg b).toNat))

/-- CompareLessOrEqual (R154): the flag becomes the truth of `x[a] <= x[b]`, unsigned by decision D6
(log 9), and nothing else changes. -/
def Obligations.CompareLessOrEqualSetsTheFlag : Prop :=
  ∀ (a b : Reg) (s : State), ∃ t, exec (.compareLessOrEqual a b) s = .next t ∧
    WritesFlag s t (decide ((s.readReg a).toNat ≤ (s.readReg b).toNat))

/-- CompareGreater (R155): the flag becomes the truth of `x[a] > x[b]`, unsigned by decision D6
(log 9), and nothing else changes. -/
def Obligations.CompareGreaterSetsTheFlag : Prop :=
  ∀ (a b : Reg) (s : State), ∃ t, exec (.compareGreater a b) s = .next t ∧
    WritesFlag s t (decide ((s.readReg b).toNat < (s.readReg a).toNat))

/-- CompareGreaterOrEqual (R156): the flag becomes the truth of `x[a] >= x[b]`, unsigned by decision
D6 (log 9), and nothing else changes. -/
def Obligations.CompareGreaterOrEqualSetsTheFlag : Prop :=
  ∀ (a b : Reg) (s : State), ∃ t, exec (.compareGreaterOrEqual a b) s = .next t ∧
    WritesFlag s t (decide ((s.readReg b).toNat ≤ (s.readReg a).toNat))

/-! ### Rules over all instructions -/

/-- The condition flag (R17): false at reset; written by the six compares alone; read by the
conditional jumps alone; and what a compare leaves does not depend on what the flag held. -/
def Obligations.FlagIsWrittenByComparesAndReadByConditionalJumps : Prop :=
  State.reset.flag = false ∧
  (∀ (i : Instr) (s t : State), exec i s = .next t → t.safe = true → i.isCompare = false →
    t.flag = s.flag) ∧
  (∀ (i : Instr) (s t : State) (b : Bool), exec i s = .next t → i.isConditionalJump = false →
    ∃ t', exec i (s.setFlag b) = .next t' ∧ t'.observe = t.observe ∧
      (t.safe = true → t' = if i.isCompare = true then t else t.setFlag b))

/-- The registers each instruction reads and writes are those of the table of R12: a register that it
does not write keeps its value, and a register that it does not read has no influence on anything
but itself. -/
def Obligations.RegistersReadAndWrittenAreThoseOfTheTable : Prop :=
  (∀ (i : Instr) (s t : State) (r : Reg), exec i s = .next t → t.safe = true →
    i.writes ≠ some r → t.readReg r = s.readReg r) ∧
  (∀ (i : Instr) (s t : State) (r : Reg) (v : Word), exec i s = .next t → r ∉ i.reads →
    ∃ t', exec i (s.writeReg r v) = .next t' ∧ t'.observe = t.observe ∧
      (t.safe = true → t' = if i.writes = some r then t else t.writeReg r v))

/-- The program store never changes, over any run: the program a run executes is the one loaded
before its first step (R20, R52). -/
def Obligations.ProgramStoreNeverChanges : Prop :=
  ∀ (s t : State) (k : Nat), runFor k s = .next t → t.prog = s.prog
end

