-- ==== Sys2Proof/Laws/State.lean ====
section
/-! SUPPORT. One lemma per field per update of State, and the values of the decided configuration. -/

namespace Sys2Proof

@[simp] theorem Config.spec_tag : Config.spec.tag = specTag := rfl
@[simp] theorem Config.spec_byteOrder : Config.spec.byteOrder = .little := rfl
@[simp] theorem Config.spec_overflowPolicy : Config.spec.overflowPolicy = .wrap := rfl
@[simp] theorem Config.spec_divRounding : Config.spec.divRounding = .floor := rfl
@[simp] theorem Config.spec_falloffStatus : Config.spec.falloffStatus = .const 0 := rfl
@[simp] theorem Config.spec_jumpOutOfRange : Config.spec.jumpOutOfRange = .outOfBounds := rfl
@[simp] theorem Config.spec_stackWords : Config.spec.stackWords = 65536 := rfl
@[simp] theorem Config.spec_offsetRepresentation :
    Config.spec.offsetRepresentation = .twosComplement := rfl

end Sys2Proof

namespace Sys2Proof.Machine

/-! ### writeReg -/
@[simp] theorem State.writeReg_pc (s : State) (r v) : (s.writeReg r v).pc = s.pc := rfl
@[simp] theorem State.writeReg_flag (s : State) (r v) : (s.writeReg r v).flag = s.flag := rfl
@[simp] theorem State.writeReg_run (s : State) (r v) : (s.writeReg r v).run = s.run := rfl
@[simp] theorem State.writeReg_stack (s : State) (r v) : (s.writeReg r v).stack = s.stack := rfl
@[simp] theorem State.writeReg_out (s : State) (r v) : (s.writeReg r v).out = s.out := rfl
@[simp] theorem State.writeReg_prog (s : State) (r v) : (s.writeReg r v).prog = s.prog := rfl

/-- Reading a register after a register write (R10, R13). -/
@[simp] theorem State.readReg_writeReg (s : State) (d r : Reg) (v : Word) :
    (s.writeReg d v).readReg r = if r = d then v else s.readReg r := by
  rcases eq_or_ne r d with rfl | h
  · simp [State.readReg, State.writeReg]
  · have h' : d.val ≠ r.val := fun e => h (Fin.ext e.symm)
    simp [State.readReg, State.writeReg, h, h']

@[simp] theorem State.writeReg_memRead (s : State) (r v a) :
    (s.writeReg r v).memRead a = s.memRead a := rfl

/-- A later write to the same register replaces an earlier one. -/
@[simp] theorem State.writeReg_writeReg (s : State) (d : Reg) (v w : Word) :
    (s.writeReg d v).writeReg d w = s.writeReg d w := by
  simp [State.writeReg]

/-- Writes to different registers commute. -/
theorem State.writeReg_comm (s : State) {d e : Reg} (h : d ≠ e) (v w : Word) :
    (s.writeReg d v).writeReg e w = (s.writeReg e w).writeReg d v := by
  have h' : d.val ≠ e.val := fun x => h (Fin.ext x)
  simp only [State.writeReg]
  congr 1
  exact Vector.set_comm _ _ h'

/-! ### setFlag -/
@[simp] theorem State.setFlag_regs (s : State) (b) : (s.setFlag b).regs = s.regs := rfl
@[simp] theorem State.setFlag_pc (s : State) (b) : (s.setFlag b).pc = s.pc := rfl
@[simp] theorem State.setFlag_flag (s : State) (b) : (s.setFlag b).flag = b := rfl
@[simp] theorem State.setFlag_run (s : State) (b) : (s.setFlag b).run = s.run := rfl
@[simp] theorem State.setFlag_stack (s : State) (b) : (s.setFlag b).stack = s.stack := rfl
@[simp] theorem State.setFlag_out (s : State) (b) : (s.setFlag b).out = s.out := rfl
@[simp] theorem State.setFlag_prog (s : State) (b) : (s.setFlag b).prog = s.prog := rfl
@[simp] theorem State.setFlag_readReg (s : State) (b r) :
    (s.setFlag b).readReg r = s.readReg r := rfl

/-! ### emit -/
@[simp] theorem State.emit_regs (s : State) (v) : (s.emit v).regs = s.regs := rfl
@[simp] theorem State.emit_pc (s : State) (v) : (s.emit v).pc = s.pc := rfl
@[simp] theorem State.emit_flag (s : State) (v) : (s.emit v).flag = s.flag := rfl
@[simp] theorem State.emit_run (s : State) (v) : (s.emit v).run = s.run := rfl
@[simp] theorem State.emit_stack (s : State) (v) : (s.emit v).stack = s.stack := rfl
@[simp] theorem State.emit_out (s : State) (v) : (s.emit v).out = s.out ++ [v] := rfl
@[simp] theorem State.emit_prog (s : State) (v) : (s.emit v).prog = s.prog := rfl
@[simp] theorem State.emit_readReg (s : State) (v r) : (s.emit v).readReg r = s.readReg r := rfl

/-! ### setPc -/
@[simp] theorem State.setPc_regs (s : State) (n) : (s.setPc n).regs = s.regs := rfl
@[simp] theorem State.setPc_pc (s : State) (n) : (s.setPc n).pc = n := rfl
@[simp] theorem State.setPc_flag (s : State) (n) : (s.setPc n).flag = s.flag := rfl
@[simp] theorem State.setPc_run (s : State) (n) : (s.setPc n).run = s.run := rfl
@[simp] theorem State.setPc_stack (s : State) (n) : (s.setPc n).stack = s.stack := rfl
@[simp] theorem State.setPc_out (s : State) (n) : (s.setPc n).out = s.out := rfl
@[simp] theorem State.setPc_prog (s : State) (n) : (s.setPc n).prog = s.prog := rfl
@[simp] theorem State.setPc_readReg (s : State) (n r) : (s.setPc n).readReg r = s.readReg r := rfl

/-! ### advance -/
@[simp] theorem State.advance_regs (s : State) : s.advance.regs = s.regs := rfl
@[simp] theorem State.advance_pc (s : State) : s.advance.pc = s.pc + 1 := rfl
@[simp] theorem State.advance_flag (s : State) : s.advance.flag = s.flag := rfl
@[simp] theorem State.advance_run (s : State) : s.advance.run = s.run := rfl
@[simp] theorem State.advance_stack (s : State) : s.advance.stack = s.stack := rfl
@[simp] theorem State.advance_out (s : State) : s.advance.out = s.out := rfl
@[simp] theorem State.advance_prog (s : State) : s.advance.prog = s.prog := rfl
@[simp] theorem State.advance_readReg (s : State) (r) : s.advance.readReg r = s.readReg r := rfl

/-! ### memWrite -/
@[simp] theorem State.memWrite_regs (s : State) (a v) : (s.memWrite a v).regs = s.regs := rfl
@[simp] theorem State.memWrite_pc (s : State) (a v) : (s.memWrite a v).pc = s.pc := rfl
@[simp] theorem State.memWrite_flag (s : State) (a v) : (s.memWrite a v).flag = s.flag := rfl
@[simp] theorem State.memWrite_run (s : State) (a v) : (s.memWrite a v).run = s.run := rfl
@[simp] theorem State.memWrite_stack (s : State) (a v) :
    (s.memWrite a v).stack = s.stack.write a v := rfl
@[simp] theorem State.memWrite_out (s : State) (a v) : (s.memWrite a v).out = s.out := rfl
@[simp] theorem State.memWrite_prog (s : State) (a v) : (s.memWrite a v).prog = s.prog := rfl
@[simp] theorem State.memWrite_readReg (s : State) (a v r) :
    (s.memWrite a v).readReg r = s.readReg r := rfl

/-! ### The run state's update, as `raise` and `halt` make it -/
@[simp] theorem State.withRun_readReg (s : State) (x : RunState) (r : Reg) :
    State.readReg { s with run := x } r = s.readReg r := rfl

/-! ### hostReset (R190) -/
@[simp] theorem State.hostReset_prog (s : State) : s.hostReset.prog = s.prog := rfl
@[simp] theorem State.hostReset_run (s : State) : s.hostReset.run = .running := rfl
@[simp] theorem State.hostReset_pc (s : State) : s.hostReset.pc = 0 := rfl

end Sys2Proof.Machine
end

