-- ==== Sys2Proof/Laws/Codec.lean ====
section
/-! SUPPORT. The fields of the wire format and what reading an operand group can answer. -/

namespace Sys2Proof

/-- Joining the bytes of a split field gives the field (R63), in either byte order. -/
theorem joinField_lowByte_highByte (v : Word) :
    joinField .little (lowByte v) (highByte v) = v ∧ joinField .big (highByte v) (lowByte v) = v := by
  have h : highByte v ++ lowByte v = v := by
    ext i hi
    simp only [highByte, lowByte, BitVec.getElem_append, BitVec.getElem_extractLsb', Nat.zero_add]
    split
    · exact BitVec.getLsbD_eq_getElem hi
    · rw [show 8 + (i - 8) = i by omega]
      exact BitVec.getLsbD_eq_getElem hi
  exact ⟨h, h⟩

/-- Splitting a joined field gives its bytes (R63), in either byte order. -/
theorem splitField_joinField (o : ByteOrder) (x y : Byte) :
    splitField o (joinField o x y) = [x, y] := by
  have key : ∀ h l : Byte, lowByte (h ++ l) = l ∧ highByte (h ++ l) = h := by
    intro h l
    constructor <;> ext i hi <;>
      simp only [lowByte, highByte, BitVec.getElem_extractLsb', BitVec.getLsbD_append]
    · simp only [Nat.zero_add, hi, if_true]
      exact BitVec.getLsbD_eq_getElem hi
    · simp only [show ¬ 8 + i < 8 by omega, if_false, Nat.add_sub_cancel_left]
      exact BitVec.getLsbD_eq_getElem hi
  cases o <;> simp [joinField, splitField, key]

/-- R65: a register's byte names that register. -/
@[simp] theorem regOfByte_byteOfReg (r : Reg) : regOfByte (byteOfReg r) = some r := by
  revert r
  decide

/-- R65: a byte that names a register is that register's byte. -/
theorem byteOfReg_of_regOfByte {q : Byte} {r : Reg} (h : regOfByte q = some r) :
    byteOfReg r = q := by
  unfold regOfByte at h
  split at h
  · obtain rfl := Option.some.inj h
    simp [byteOfReg]
  · cases h

/-- R65: the byte values from 16 on name no register. -/
theorem regOfByte_none {q : Byte} (h : 16 ≤ q.toNat) : regOfByte q = none := by
  simp [regOfByte, Nat.not_lt.mpr h]

/-- Reading a register byte: the register it names, or InvalidRegister (R68). -/
theorem takeReg_cases {n : Nat} {q : Byte} {x : Except DecodeError Reg} (h : takeReg n q = x) :
    (∃ r, byteOfReg r = q ∧ x = .ok r) ∨
    (16 ≤ q.toNat ∧ x = .error (.invalidRegister n q)) := by
  unfold takeReg at h
  rcases hq : regOfByte q with _ | r
  · refine .inr ⟨?_, by simp [hq] at h; exact h.symm⟩
    unfold regOfByte at hq
    split at hq
    · cases hq
    · omega
  · exact .inl ⟨r, byteOfReg_of_regOfByte hq, by simp [hq] at h; exact h.symm⟩

@[simp] theorem takeReg_byteOfReg (n : Nat) (r : Reg) : takeReg n (byteOfReg r) = .ok r := by
  simp [takeReg]

/-- The variant a tag selects has that tag (R66). -/
theorem tag_of_opcodeOfTag {c : Config} {t : Byte} {op : Opcode} (h : opcodeOfTag c t = some op) :
    c.tag op = t := by
  have := List.find?_some h
  simpa using this

theorem mem_allOpcodes (op : Opcode) : op ∈ allOpcodes := by
  cases op <;> decide

/-- Under unique tags, a variant's tag selects that variant (R66). -/
theorem opcodeOfTag_tag {c : Config} (h : c.TagsUnique) (op : Opcode) :
    opcodeOfTag c (c.tag op) = some op := by
  rcases hf : opcodeOfTag c (c.tag op) with _ | op'
  · have := List.find?_eq_none.mp hf op (mem_allOpcodes op)
    simp at this
  · rw [h _ _ (tag_of_opcodeOfTag hf)]

/-- The opcode map of R66 has no tag twice. -/
theorem spec_tagsUnique : Config.spec.TagsUnique := by
  intro a b h
  revert h
  cases a <;> cases b <;> decide

/-- An encoded instruction is as long as its format says (R62, R67). -/
theorem length_encodeInstr (c : Config) (i : Instr) :
    (encodeInstr c i).length = i.byteLength := by
  rcases c with ⟨_, o, _⟩
  cases i <;> cases o <;> rfl

end Sys2Proof
end

