-- ==== Sys2Proof/Laws/Memory.lean ====
section
/-! SUPPORT. The stack memory: what a write does to a read, and the canonical form is kept. -/

namespace Sys2Proof.Machine

theorem Memory.read_cons (b : Nat) (w : Word) (m : Memory) (a : Nat) :
    Memory.read ((b, w) :: m) a = if a = b then w else Memory.read m a := rfl

@[simp] theorem Memory.read_nil (a : Nat) : Memory.read [] a = Memory.unlisted := rfl

/-- A canonical memory lists no index below its bound. -/
theorem Memory.read_below {lo a : Nat} {m : Memory} (h : Memory.wfFrom lo m = true) (ha : a < lo) :
    Memory.read m a = Memory.unlisted := by
  induction m generalizing lo with
  | nil => rfl
  | cons e m ih =>
    obtain ⟨b, w⟩ := e
    simp only [Memory.wfFrom, Bool.and_eq_true, decide_eq_true_eq] at h
    rw [Memory.read_cons, if_neg (by omega)]
    exact ih h.2 (by omega)

theorem Memory.wfFrom_mono {lo lo' : Nat} {m : Memory} (h : Memory.wfFrom lo m = true)
    (hl : lo' ≤ lo) : Memory.wfFrom lo' m = true := by
  cases m with
  | nil => rfl
  | cons e m =>
    obtain ⟨b, w⟩ := e
    simp only [Memory.wfFrom, Bool.and_eq_true, decide_eq_true_eq] at h ⊢
    exact ⟨⟨⟨by omega, h.1.1.2⟩, h.1.2⟩, h.2⟩

/-- What a write does to every read, from any canonical memory (R42). -/
theorem Memory.read_write_from {lo : Nat} {m : Memory} (h : Memory.wfFrom lo m = true)
    (a : Nat) (v : Word) (x : Nat) :
    (m.write a v).read x = if x = a then v else m.read x := by
  induction m generalizing lo with
  | nil =>
    by_cases hv : v = Memory.unlisted <;> by_cases hx : x = a <;>
      simp [Memory.write, Memory.read_cons, hv, hx]
  | cons e m ih =>
    obtain ⟨b, w⟩ := e
    simp only [Memory.wfFrom, Bool.and_eq_true, decide_eq_true_eq] at h
    have below : ∀ y, y < b + 1 → Memory.read m y = Memory.unlisted :=
      fun y hy => Memory.read_below h.2 hy
    rcases lt_trichotomy a b with hab | rfl | hab
    · by_cases hv : v = Memory.unlisted
      · by_cases hx : x = a
        · subst hx
          simp [Memory.write, Memory.read_cons, hab, hv, Nat.ne_of_lt hab, below x (by omega)]
        · simp [Memory.write, hab, hv, hx]
      · simp [Memory.write, Memory.read_cons, hab, hv]
    · by_cases hv : v = Memory.unlisted
      · by_cases hx : x = a
        · subst hx
          simp [Memory.write, hv, below x (by omega)]
        · simp [Memory.write, Memory.read_cons, hv, hx]
      · by_cases hx : x = a <;> simp [Memory.write, Memory.read_cons, hv, hx]
    · have hna : ¬ a < b := by omega
      have hne : a ≠ b := by omega
      rw [Memory.write, if_neg hna, if_neg hne, Memory.read_cons, Memory.read_cons, ih h.2]
      by_cases hx : x = b
      · subst hx
        simp [Ne.symm hne]
      · simp [hx]

/-- What a write does to every read (R42): the written word changes and no other. -/
theorem Memory.read_write {m : Memory} (h : m.wf = true) (a : Nat) (v : Word) (x : Nat) :
    (m.write a v).read x = if x = a then v else m.read x :=
  Memory.read_write_from h a v x

theorem Memory.wfFrom_write {lo : Nat} {m : Memory} (h : Memory.wfFrom lo m = true)
    {a : Nat} (hlo : lo ≤ a) (ha : a < Config.spec.stackWords) (v : Word) :
    Memory.wfFrom lo (m.write a v) = true := by
  induction m generalizing lo with
  | nil =>
    by_cases hv : v = Memory.unlisted
    · simp [Memory.write, hv, Memory.wfFrom]
    · simp only [Memory.write, hv, if_false, Memory.wfFrom, Bool.and_eq_true, decide_eq_true_eq]
      exact ⟨⟨⟨hlo, ha⟩, hv⟩, trivial⟩
  | cons e m ih =>
    obtain ⟨b, w⟩ := e
    have h0 := h
    simp only [Memory.wfFrom, Bool.and_eq_true, decide_eq_true_eq] at h
    rcases lt_trichotomy a b with hab | rfl | hab
    · by_cases hv : v = Memory.unlisted
      · simpa only [Memory.write, hab, hv, if_true] using h0
      · simp only [Memory.write, hab, hv, if_true, if_false, Memory.wfFrom, Bool.and_eq_true,
          decide_eq_true_eq]
        exact ⟨⟨⟨hlo, ha⟩, hv⟩, ⟨⟨by omega, h.1.1.2⟩, h.1.2⟩, h.2⟩
    · by_cases hv : v = Memory.unlisted
      · simp only [Memory.write, lt_irrefl, if_false, hv, if_true]
        exact Memory.wfFrom_mono h.2 (by omega)
      · simp only [Memory.write, lt_irrefl, if_false, if_true, hv, Memory.wfFrom,
          Bool.and_eq_true, decide_eq_true_eq]
        exact ⟨⟨⟨hlo, ha⟩, hv⟩, h.2⟩
    · have hna : ¬ a < b := by omega
      have hne : a ≠ b := by omega
      rw [Memory.write, if_neg hna, if_neg hne]
      simp only [Memory.wfFrom, Bool.and_eq_true, decide_eq_true_eq]
      exact ⟨h.1, ih h.2 (by omega)⟩

/-- Every write to an index of the stack memory keeps the canonical form. -/
theorem Memory.wf_write {m : Memory} (h : m.wf = true) {a : Nat} (ha : a < Config.spec.stackWords)
    (v : Word) : (m.write a v).wf = true :=
  Memory.wfFrom_write h (Nat.zero_le a) ha v

/-- The stack memory of the reset state is in canonical form. -/
theorem Memory.wf_reset : State.reset.stack.wf = true := rfl

end Sys2Proof.Machine
end

