-- ==== Sys2Proof/Laws/Ops.lean ====
section
/-! SUPPORT. For each shared operation, one lemma that says everything it can do. -/

namespace Sys2Proof.Machine

/-- Completing answers the advanced state and nothing else. -/
@[simp] theorem complete_eq_next {s t : State} : complete s = .next t ↔ s.advance = t := by
  simp [complete]

/-- Fault entry answers one next state (R164). -/
@[simp] theorem raise_eq_next {k : FaultKind} {s t : State} :
    raise k s = .next t ↔ { s with run := .faulted k s.pc } = t := by
  simp [raise]

/-- A halt answers one next state (R100, R25). -/
@[simp] theorem halt_eq_next {w : Word} {s t : State} :
    halt w s = .next t ↔ { s with run := .halted w } = t := by
  simp [halt]

/-- Running off the end halts with status 0 (R25, D7). -/
theorem haltAtEnd_eq (s : State) : haltAtEnd s = .next { s with run := .halted 0 } := rfl

/-- The bounds guard of a stack access is never taken (R43). -/
@[simp] theorem withStackAddress_eq (offset : Word) (s : State) (access : Nat → Result) :
    withStackAddress Config.spec offset s access = access (effectiveAddress offset) := by
  have h : effectiveAddress offset < Config.spec.stackWords := offset.isLt
  simp only [withStackAddress, h, if_true]

/-- The effective address is an index of the stack memory (R41). -/
theorem effectiveAddress_lt (offset : Word) :
    effectiveAddress offset < Config.spec.stackWords := offset.isLt

@[simp] theorem targetLegal_iff {t : Int} {n : Nat} :
    targetLegal t n = true ↔ 0 ≤ t ∧ t ≤ n := by
  simp [targetLegal]

/-- A jump's target in terms of its signed offset (R140). -/
theorem jumpTarget_eq (pc : Nat) (offset : Word) :
    jumpTarget Config.spec pc offset = (pc : Int) + 1 + asSint16 offset := rfl

/-- `as_sint16` lies in the range of a signed 16-bit number (R64). -/
theorem asSint16_range (v : Word) : -32768 ≤ asSint16 v ∧ asSint16 v ≤ 32767 := by
  have := v.isLt
  unfold asSint16
  split <;> omega

/-- What a taken jump can do: land on a legal target, or fault (R144). -/
theorem takeJump_cases {offset : Word} {s : State} {r : Result}
    (h : takeJump Config.spec offset s = r) :
    (∃ n : Nat, (n : Int) = jumpTarget Config.spec s.pc offset ∧ n ≤ s.prog.length ∧
      r = .next (s.setPc n)) ∨
    ((jumpTarget Config.spec s.pc offset < 0 ∨
        (s.prog.length : Int) < jumpTarget Config.spec s.pc offset) ∧
      r = raise .outOfBounds s) := by
  simp only [takeJump] at h
  split at h
  · rename_i hl
    rw [targetLegal_iff] at hl
    exact .inl ⟨_, Int.toNat_of_nonneg hl.1, by omega, h.symm⟩
  · rename_i hl
    rw [targetLegal_iff] at hl
    exact .inr ⟨by omega, h.symm⟩

/-- Under the decided policy the arithmetic of Add, Sub and Mul always completes (R125, R163). -/
theorem accumulate_eq (op : Int → Int → Int) (a b : Reg) (s : State) :
    accumulate Config.spec op a b s =
      complete (s.writeReg b
        (BitVec.ofInt 16 (op (s.readReg b).toNat (s.readReg a).toNat))) := rfl

/-- What a division can do: fault on a zero divisor, or write the floor (R124). -/
theorem divideInto_cases {a b : Reg} {s : State} {r : Result}
    (h : divideInto Config.spec a b s = r) :
    ((s.readReg a).toNat = 0 ∧ r = raise .divisionByZero s) ∨
    (0 < (s.readReg a).toNat ∧ r = complete (s.writeReg b
      (BitVec.ofNat 16 ((s.readReg b).toNat / (s.readReg a).toNat)))) := by
  subst h
  by_cases hz : (s.readReg a).toNat = 0
  · exact .inl ⟨hz, if_pos hz⟩
  · exact .inr ⟨by omega, if_neg hz⟩

/-- A compare writes the flag and advances (R150). -/
theorem compareBy_eq (relation : Word → Word → Bool) (a b : Reg) (s : State) :
    compareBy relation a b s =
      complete (s.setFlag (relation (s.readReg a) (s.readReg b))) := rfl

/-- What fetch can find (R24). -/
theorem fetch_cases (s : State) :
    (∃ i, s.prog[s.pc]? = some i ∧ s.pc < s.prog.length ∧ fetch s = .instr i) ∨
    (s.pc = s.prog.length ∧ fetch s = .atEnd) ∨
    (s.prog.length < s.pc ∧ fetch s = .outside) := by
  unfold fetch
  rcases lt_trichotomy s.pc s.prog.length with h | h | h
  · exact .inl ⟨s.prog[s.pc], by simp [h], h, by simp [h]⟩
  · exact .inr (.inl ⟨h, by simp [h]⟩)
  · refine .inr (.inr ⟨h, ?_⟩)
    rw [List.getElem?_eq_none (by omega)]
    simp [Nat.ne_of_gt h]

/-- What a step can do (R24, R18). -/
theorem step_cases (s : State) :
    (s.terminal = true ∧ step s = .next s) ∨
    (s.run = .running ∧ ∃ i, s.prog[s.pc]? = some i ∧ s.pc < s.prog.length ∧ step s = exec i s) ∨
    (s.run = .running ∧ s.pc = s.prog.length ∧ step s = .next { s with run := .halted 0 }) ∨
    (s.run = .running ∧ s.prog.length < s.pc ∧ step s = .fault .pcOutsideProgram) := by
  rcases hr : s.run with _ | w | ⟨k, n⟩
  · rcases fetch_cases s with ⟨i, hi, hl, hf⟩ | ⟨he, hf⟩ | ⟨he, hf⟩
    · exact .inr (.inl ⟨rfl, i, hi, hl, by simp [step, hr, hf]⟩)
    · exact .inr (.inr (.inl ⟨rfl, he, by simp [step, hr, hf, haltAtEnd_eq]⟩))
    · exact .inr (.inr (.inr ⟨rfl, he, by simp [step, hr, hf]⟩))
  · exact .inl ⟨by simp [State.terminal, hr], by simp [step, hr]⟩
  · exact .inl ⟨by simp [State.terminal, hr], by simp [step, hr]⟩

end Sys2Proof.Machine
end

