-- ==== Sys2Proof/Laws/Exec.lean ====
section
/-! SUPPORT. What an instruction can do, said once; and what a run of steps is made of. -/

namespace Sys2Proof.Machine

/-- A taken jump is `takeJump` of its offset (R141 to R143). -/
theorem exec_of_jumpTaken {i : Instr} {s : State} {offset : Word}
    (h : jumpTaken i s = some offset) : exec i s = takeJump Config.spec offset s := by
  cases i <;> simp [jumpTaken, exec, execJump, execJumpIfTrue, execJumpIfFalse] at * <;> simp_all

/-- If an instruction answers the next state `t`, one of these cases holds: Return; a register
write; a stack write; a print; a jump to a legal target; a jump outside; a division by zero; an
untaken jump; a flag write. -/
theorem exec_cases {i : Instr} {s t : State} (h : exec i s = .next t) :
    (i = .ret ∧ t = { s with run := .halted (s.readReg 0) }) ∨
    (∃ d v, i.writes = some d ∧ jumpTaken i s = none ∧ i.isCompare = false ∧
      (∀ r, i ≠ .print r) ∧ (∀ a o, i ≠ .storeToStack a o) ∧
      (∀ a b, i = .div a b → s.readReg a ≠ 0) ∧ i ≠ .ret ∧ t = (s.writeReg d v).advance) ∨
    (∃ src offset, i = .storeToStack src offset ∧
      t = (s.memWrite (effectiveAddress offset) (s.readReg src)).advance) ∨
    (∃ r, i = .print r ∧ t = (s.emit (s.readReg r)).advance) ∨
    (∃ offset, jumpTaken i s = some offset ∧ ∃ n : Nat,
      (n : Int) = jumpTarget Config.spec s.pc offset ∧ n ≤ s.prog.length ∧ t = s.setPc n) ∨
    (∃ offset, jumpTaken i s = some offset ∧ TargetOutside s offset ∧
      t = { s with run := .faulted .outOfBounds s.pc }) ∨
    (∃ a b, i = .div a b ∧ s.readReg a = 0 ∧
      t = { s with run := .faulted .divisionByZero s.pc }) ∨
    (i.isConditionalJump = true ∧ jumpTaken i s = none ∧ t = s.advance) ∨
    (i.isCompare = true ∧ jumpTaken i s = none ∧ ∃ b, t = (s.setFlag b).advance) := by
  rcases hj : jumpTaken i s with _ | offset
  · cases i <;>
      simp [exec, execRet, execLoadImmediate, execLoadFromStack, execCopyRegToReg,
        execStoreToStack, execAdd, execSub, execMul, execPrint, execJump, execJumpIfTrue,
        execJumpIfFalse, execCompareEqual, execCompareNotEqual, execCompareLess,
        execCompareLessOrEqual, execCompareGreater, execCompareGreaterOrEqual, accumulate_eq,
        compareBy_eq, Instr.writes, Instr.isCompare, Instr.isConditionalJump, jumpTaken]
        at h hj ⊢
    case div a b =>
      rcases divideInto_cases (r := .next t) h with ⟨hz, ht⟩ | ⟨hz, ht⟩ <;>
        rw [eq_comm] at ht <;> simp at ht
      · exact .inr ⟨BitVec.eq_of_toNat_eq (by simpa using hz), ht.symm⟩
      · exact .inl ⟨(by rintro e; simp [e] at hz), _, ht.symm⟩
    case compareEqual => subst h; cases flagEqual _ _ <;> simp
    case compareNotEqual => subst h; cases flagNotEqual _ _ <;> simp
    case compareLess => subst h; cases flagLess _ _ <;> simp
    case compareLessOrEqual => subst h; cases flagLessOrEqual _ _ <;> simp
    case compareGreater => subst h; cases flagGreater _ _ <;> simp
    case compareGreaterOrEqual => subst h; cases flagGreaterOrEqual _ _ <;> simp
    all_goals first | exact h.symm | exact ⟨_, h.symm⟩ | (simp [hj] at h; exact h.symm)
  · rw [exec_of_jumpTaken hj] at h
    rcases takeJump_cases h with ⟨n, h1, h2, h3⟩ | ⟨h1, h2⟩
    · cases h3
      exact .inr (.inr (.inr (.inr (.inl ⟨offset, rfl, n, h1, h2, rfl⟩))))
    · rw [eq_comm, raise_eq_next] at h2
      exact .inr (.inr (.inr (.inr (.inr (.inl ⟨offset, rfl, h1, h2.symm⟩)))))

@[simp] theorem runFor_zero (s : State) : runFor 0 s = .next s := rfl

/-- A run of `k + 1` steps is a step and then a run of `k`. -/
theorem runFor_succ (k : Nat) (s : State) :
    runFor (k + 1) s =
      match step s with
      | .next t => runFor k t
      | .fault r => .fault r
      | .refused r => .refused r := by
  cases h : step s <;> simp [runFor, Host.Core.run, core, h]

/-- A relation that holds of a state and itself and extends by a step at the front holds between the
ends of every run. -/
theorem runFor_induction {P : State → State → Prop} (refl : ∀ s, P s s)
    (front : ∀ s t u, step s = .next t → P t u → P s u) {k : Nat} {s t : State}
    (h : runFor k s = .next t) : P s t := by
  induction k generalizing s with
  | zero => cases h; exact refl _
  | succ k ih =>
    rw [runFor_succ] at h
    rcases hs : step s with u | r | r <;> rw [hs] at h
    · exact front _ u _ hs (ih h)
    · cases h
    · cases h

/-- What booting answers: the reset state with the program, where the program fits (R191). -/
theorem boot_cases {n : Nat} {p : List Instr} {s : State} (h : boot n p = .ok s) :
    p.length ≤ n ∧ s = { State.reset with prog := p } := by
  unfold boot at h
  split at h <;> rename_i hf <;> cases h
  exact ⟨by simpa [programFits] using hf, rfl⟩

/-- The placed instruction is the one at its index. -/
theorem getElem?_placeAt (p : List Instr) (k : Nat) (i : Instr) : (placeAt p k i)[k]? = some i := by
  unfold placeAt
  have : (p.take k ++ List.replicate (k - p.length) i).length = k := by simp; omega
  rw [List.append_assoc, ← List.append_assoc, List.getElem?_append_right (by omega)]
  simp [this]

end Sys2Proof.Machine
end

