-- ==== Sys2Proof/Laws/PerInstr.lean ====
section
/-! SUPPORT. Statements made per instruction: the length of an encoded instruction is the one its
tag gives (R67). -/

namespace Sys2Proof.Laws

/-- R67: the length is a function of the tag alone, and every instruction's tag is assigned. -/
def EncodedLength.Statement (i : Instr) : Prop :=
  tagLength Config.spec (Config.spec.tag i.opcode) = some (encodeInstr Config.spec i).length

theorem EncodedLength.ret : EncodedLength.Statement .ret := rfl
theorem EncodedLength.loadImmediate (v d) : EncodedLength.Statement (.loadImmediate v d) := rfl
theorem EncodedLength.loadFromStack (v d) : EncodedLength.Statement (.loadFromStack v d) := rfl
theorem EncodedLength.copyRegToReg (a b) : EncodedLength.Statement (.copyRegToReg a b) := rfl
theorem EncodedLength.storeToStack (a v) : EncodedLength.Statement (.storeToStack a v) := rfl
theorem EncodedLength.add (a b) : EncodedLength.Statement (.add a b) := rfl
theorem EncodedLength.sub (a b) : EncodedLength.Statement (.sub a b) := rfl
theorem EncodedLength.mul (a b) : EncodedLength.Statement (.mul a b) := rfl
theorem EncodedLength.div (a b) : EncodedLength.Statement (.div a b) := rfl
theorem EncodedLength.print (a) : EncodedLength.Statement (.print a) := rfl
theorem EncodedLength.jump (v) : EncodedLength.Statement (.jump v) := rfl
theorem EncodedLength.jumpIfTrue (v) : EncodedLength.Statement (.jumpIfTrue v) := rfl
theorem EncodedLength.jumpIfFalse (v) : EncodedLength.Statement (.jumpIfFalse v) := rfl
theorem EncodedLength.compareEqual (a b) : EncodedLength.Statement (.compareEqual a b) := rfl
theorem EncodedLength.compareNotEqual (a b) : EncodedLength.Statement (.compareNotEqual a b) := rfl
theorem EncodedLength.compareLess (a b) : EncodedLength.Statement (.compareLess a b) := rfl
theorem EncodedLength.compareLessOrEqual (a b) :
    EncodedLength.Statement (.compareLessOrEqual a b) := rfl
theorem EncodedLength.compareGreater (a b) : EncodedLength.Statement (.compareGreater a b) := rfl
theorem EncodedLength.compareGreaterOrEqual (a b) :
    EncodedLength.Statement (.compareGreaterOrEqual a b) := rfl

/-- Every instruction is well formed: its type admits no other operand (R11, R20, R64). -/
theorem wellFormed_all (i : Instr) : i.wellFormed = true := by
  have hr : ∀ r : Reg, registerNumberOk r.val = true := fun r => by simp [registerNumberOk]
  have hu : ∀ v : Word, unsigned16Ok v.toNat = true := fun v => by
    have := v.isLt
    simp [unsigned16Ok]
    omega
  have hs : ∀ v : Word, signed16Ok v.toInt = true := fun v => by
    have h1 := BitVec.two_mul_toInt_lt (x := v)
    have h2 := BitVec.le_two_mul_toInt (x := v)
    simp only [signed16Ok, Bool.and_eq_true, decide_eq_true_eq]
    omega
  cases i <;> simp [Instr.wellFormed, hr, hu, hs]

end Sys2Proof.Laws
end

