-- ==== Sys2Proof/Laws/Text.lean ====
section
/-! SUPPORT. Small facts about the assembly text's tokens. -/

namespace Sys2Proof.Machine

/-- A mnemonic selects its own variant (R75). -/
theorem opcodeOfMnemonic_mnemonic (op : Opcode) : opcodeOfMnemonic (mnemonic op) = some op := by
  cases op <;> decide

/-- A token that selects a variant is its mnemonic (R75). -/
theorem mnemonic_of_opcodeOfMnemonic {t : List Char} {op : Opcode}
    (h : opcodeOfMnemonic t = some op) : mnemonic op = t := by
  have := List.find?_some h
  simpa using this

/-- No mnemonic begins a comment (R74). -/
theorem isComment_mnemonic (op : Opcode) : isComment (mnemonic op) = false := by
  cases op <;> decide

/-- A blank line and a comment make no instruction (R74). -/
theorem parseLine_blank (c : Config) : parseLine c [] = .ok none := rfl

/-- The decimal text of a register parses back to it (R78, R81). -/
theorem parseReg_regText (r : Reg) : parseReg (regText r) = some r := by
  revert r
  decide

end Sys2Proof.Machine
end

