-- ==== Sys2Proof/Tests/Slice0.lean ====
section
/-! SUPPORT. Tests: the checks of WellFormed, the words of the decoder, one or two steps per
instruction, the assembly text, and a witness for the hypotheses of each obligation. Expected
values are those of the vectors V-* and scenarios S* of `95_test_vectors.md`. -/

namespace Sys2Proof.Tests

open Sys2Proof Sys2Proof.Machine

/-! ### WellFormed refuses -/

theorem test_register_16_refused : registerNumberOk 16 = false := by decide
theorem test_register_15_accepted : registerNumberOk 15 = true := by decide
theorem test_unsigned_refuses_65536_and_minus_1 :
    unsigned16Ok 65536 = false ∧ unsigned16Ok (-1) = false ∧ unsigned16Ok 65535 = true := by decide
theorem test_signed_refuses_32768 :
    signed16Ok 32768 = false ∧ signed16Ok (-32769) = false ∧ signed16Ok (-32768) = true := by decide
theorem test_program_too_long_refused : programFits 1 [.ret, .ret] = false := by decide

/-! ### Words written out from the encodings (R62, R66; vectors of parts 1 and 2) -/

theorem test_decode_ret : decode [0x00] = .ok [.ret] := by decide
theorem test_decode_putreg : decode [0x01, 0xE8, 0x03, 0x00] = .ok [.loadImmediate 1000 0] := by
  decide
theorem test_decode_copysr : decode [0x02, 0x64, 0x00, 0x00] = .ok [.loadFromStack 100 0] := by
  decide
theorem test_decode_copyrr : decode [0x03, 0x00, 0x0F] = .ok [.copyRegToReg 0 15] := by decide
theorem test_decode_copyrs : decode [0x04, 0x0F, 0xFE, 0xFF] = .ok [.storeToStack 15 65534] := by
  decide
theorem test_decode_add : decode [0x05, 0x01, 0x00] = .ok [.add 1 0] := by decide
theorem test_decode_sub : decode [0x06, 0x02, 0x01] = .ok [.sub 2 1] := by decide
theorem test_decode_mul : decode [0x07, 0x01, 0x03] = .ok [.mul 1 3] := by decide
theorem test_decode_div : decode [0x08, 0x01, 0x02] = .ok [.div 1 2] := by decide
theorem test_decode_print : decode [0x09, 0x0F] = .ok [.print 15] := by decide
theorem test_decode_jump : decode [0x0A, 0xFB, 0xFF] = .ok [.jump (-5)] := by decide
theorem test_decode_jumptrue : decode [0x0B, 0x03, 0x00] = .ok [.jumpIfTrue 3] := by decide
theorem test_decode_jumpfalse : decode [0x0C, 0xF9, 0xFF] = .ok [.jumpIfFalse (-7)] := by decide
theorem test_decode_cmpeq : decode [0x0D, 0x00, 0x01] = .ok [.compareEqual 0 1] := by decide
theorem test_decode_cmpne : decode [0x0E, 0x00, 0x02] = .ok [.compareNotEqual 0 2] := by decide
theorem test_decode_cmplt : decode [0x0F, 0x01, 0x03] = .ok [.compareLess 1 3] := by decide
theorem test_decode_cmple : decode [0x10, 0x01, 0x03] = .ok [.compareLessOrEqual 1 3] := by decide
theorem test_decode_cmpgt : decode [0x11, 0x00, 0x01] = .ok [.compareGreater 0 1] := by decide
theorem test_decode_cmpge : decode [0x12, 0x0F, 0x0E] = .ok [.compareGreaterOrEqual 15 14] := by
  decide

/-- V-D10, V-D11, V-D13, V-D14, V-D16, V-D18 to V-D21. -/
theorem test_decode_errors :
    decode [0x1F] = .error (.unknownOpcode 0 0x1F) ∧
    decode [0x13] = .error (.unknownOpcode 0 0x13) ∧
    decode [0x01, 0x14, 0x00, 0x00, 0x1F] = .error (.unknownOpcode 4 0x1F) ∧
    decode [0x01, 0x14, 0x00] = .error (.truncated 0) ∧
    decode [0x00, 0x05, 0x01] = .error (.truncated 1) ∧
    decode [0x05, 0x10, 0x00] = .error (.invalidRegister 1 16) ∧
    decode [0x05, 0x00, 0xFF] = .error (.invalidRegister 2 255) ∧
    decode [0x02, 0xFF, 0xFF, 0x10] = .error (.invalidRegister 3 16) ∧
    decode [0x05, 0x10] = .error (.truncated 0) := by decide

/-- The 31 bytes of Scenario 2 (S2), both ways. -/
theorem test_encode_scenario_2 :
    encode [.loadImmediate 0 0, .loadImmediate 1 1, .loadImmediate 5 2, .compareEqual 0 2,
      .jumpIfTrue 3, .print 0, .add 1 0, .jump (-5), .loadImmediate 0 0, .ret] =
    [0x01, 0x00, 0x00, 0x00, 0x01, 0x01, 0x00, 0x01, 0x01, 0x05, 0x00, 0x02, 0x0D, 0x00, 0x02,
     0x0B, 0x03, 0x00, 0x09, 0x00, 0x05, 0x01, 0x00, 0x0A, 0xFB, 0xFF, 0x01, 0x00, 0x00, 0x00,
     0x00] := by decide

/-- A table word whose operand bits are not given reads them as zeros. -/
theorem test_table_word : decodeTableWord 8 0x01 = some (.loadImmediate 0 0) ∧
    decodeTableWord 32 0x0003E801 = some (.loadImmediate 1000 0) ∧
    decodeTableWord 8 0x13 = none := by decide

/-! ### One step -/

/-- A Running machine with the program `p`, `pc`, the flag and some registers set. -/
def machine (p : List Instr) (pc : Nat) (flag : Bool) (regs : List (Reg × Word)) : State :=
  regs.foldl (fun s rv => s.writeReg rv.1 rv.2) { State.reset with prog := p, pc := pc, flag := flag }

/-- The next state, if the step answers one. -/
def after (r : Result) : Option State :=
  match r with
  | .next t => some t
  | _ => none

/-- A program of `n` Returns, to give LEN. -/
def returns (n : Nat) : List Instr := List.replicate n .ret

/-- V-R3: all 16 bits are kept; the instruction pointer stays. -/
theorem test_ret : (after (step (machine [.ret] 0 false [(0, 65535)]))).map
    (fun t => (t.run, t.pc)) = some (.halted 65535, 0) := by decide
/-- V-M2. -/
theorem test_putreg : (after (step (machine [.loadImmediate 65535 15] 0 true [(15, 3)]))).map
    (fun t => (t.readReg 15, t.pc, t.flag)) = some (65535, 1, true) := by decide
/-- V-M4, V-M5. -/
theorem test_copysr : (after (exec (.loadFromStack 100 0)
    { machine [] 0 false [] with stack := [(100, 55)] })).map (fun t => t.readReg 0) = some 55 ∧
    (after (exec (.loadFromStack 65535 1) (machine [] 0 false [(1, 9)]))).map
      (fun t => t.readReg 1) = some 0 := by decide
/-- V-M10: the second operand is written. -/
theorem test_copyrr : (after (exec (.copyRegToReg 1 2) (machine [] 0 false [(1, 1), (2, 2)]))).map
    (fun t => (t.readReg 1, t.readReg 2)) = some (1, 1) := by decide
/-- V-M6; a stored 0 leaves no entry. -/
theorem test_copyrs : (after (exec (.storeToStack 0 65535) (machine [] 0 false [(0, 55)]))).map
    (fun t => t.stack) = some [(65535, 55)] ∧
    (after (exec (.storeToStack 0 7)
      { machine [] 0 false [] with stack := [(3, 1), (7, 2), (9, 3)] })).map
      (fun t => t.stack) = some [(3, 1), (9, 3)] := by decide
/-- V-A2, V-A30. -/
theorem test_add : (after (exec (.add 1 0) (machine [] 0 false [(0, 65535), (1, 1)]))).map
    (fun t => (t.readReg 0, t.readReg 1)) = some (0, 1) ∧
    (after (exec (.add 3 3) (machine [] 0 false [(3, 40000)]))).map
      (fun t => t.readReg 3) = some 14464 := by decide
/-- V-A8, V-A10. -/
theorem test_sub : (after (exec (.sub 1 0) (machine [] 0 false [(0, 5), (1, 7)]))).map
    (fun t => t.readReg 0) = some 65534 ∧
    (after (exec (.sub 1 0) (machine [] 0 false [(0, 7), (1, 5)]))).map
      (fun t => t.readReg 0) = some 2 := by decide
/-- V-A13, V-A34. -/
theorem test_mul : (after (exec (.mul 1 0) (machine [] 0 false [(0, 300), (1, 300)]))).map
    (fun t => t.readReg 0) = some 24464 ∧
    (after (exec (.mul 3 3) (machine [] 0 false [(3, 65535)]))).map
      (fun t => t.readReg 3) = some 1 := by decide
/-- V-A18. -/
theorem test_div : (after (exec (.div 1 0) (machine [] 0 false [(0, 1000), (1, 7)]))).map
    (fun t => t.readReg 0) = some 142 := by decide
/-- V-A27: 0 / 0 faults too. -/
theorem test_div_by_zero : (after (step (machine [.ret, .div 1 0] 1 false []))).map
    State.observe = some (.faulted .divisionByZero 1 []) := by decide
/-- V-P2. -/
theorem test_print : (after (exec (.print 15)
    { machine [] 0 false [(15, 65535)] with out := [1, 2] })).map
    (fun t => t.out) = some [1, 2, 65535] := by decide
/-- V-J3, V-J5. -/
theorem test_jump : (after (exec (.jump (-5)) (machine (returns 10) 7 false []))).map
    (fun t => t.pc) = some 3 ∧
    (after (exec (.jump 1) (machine (returns 5) 3 false []))).map
      (fun t => (t.pc, t.run)) = some (5, .running) := by decide
/-- V-J6, V-J7, V-J9. -/
theorem test_jump_outside : (after (exec (.jump 1) (machine (returns 2) 1 false []))).map
    State.observe = some (.faulted .outOfBounds 1 []) ∧
    (after (exec (.jump (-3)) (machine (returns 2) 1 false []))).map
      State.observe = some (.faulted .outOfBounds 1 []) ∧
    (after (exec (.jump 0x8000) (machine (returns 1) 0 false []))).map
      State.observe = some (.faulted .outOfBounds 0 []) := by decide
/-- V-J11, V-J15. -/
theorem test_jumptrue : (after (exec (.jumpIfTrue 3) (machine (returns 10) 4 true []))).map
    (fun t => (t.pc, t.flag)) = some (8, true) ∧
    (after (exec (.jumpIfTrue 100) (machine (returns 2) 0 false []))).map
      (fun t => (t.pc, t.run)) = some (1, .running) := by decide
/-- V-J13, V-J14. -/
theorem test_jumpfalse : (after (exec (.jumpIfFalse 3) (machine (returns 11) 3 false []))).map
    (fun t => t.pc) = some 7 ∧
    (after (exec (.jumpIfFalse 3) (machine (returns 11) 3 true []))).map
      (fun t => t.pc) = some 4 := by decide

/-- The flags the six compares of R0 and R1 leave, in the order of the table of vectors V-C1 to
V-C9, the flag set to the given value before. -/
def compares (p q : Word) (flag : Bool) : List (Option Bool) :=
  [Instr.compareEqual 0 1, .compareNotEqual 0 1, .compareLess 0 1, .compareLessOrEqual 0 1,
   .compareGreater 0 1, .compareGreaterOrEqual 0 1].map
    (fun i => (after (exec i (machine [] 0 flag [(0, p), (1, q)]))).map (fun t => t.flag))

/-- V-C1, V-C2, V-C6, V-C7. -/
theorem test_compares :
    compares 20 20 false = [some true, some false, some false, some true, some false, some true] ∧
    compares 20 21 true = [some false, some true, some true, some true, some false, some false] ∧
    compares 65535 0 false = [some false, some true, some false, some false, some true, some true] ∧
    compares 32767 32768 true =
      [some false, some true, some true, some true, some false, some false] := by decide

/-- V-X2, V-X3, V-X4. -/
theorem test_ends : (after (step (machine [] 0 false []))).map State.observe =
      some (.halted 0 []) ∧
    (after (step (machine [.loadImmediate 9 0] 1 false [(0, 9)]))).map State.observe =
      some (.halted 0 []) ∧
    (after (step { machine [.ret] 0 false [] with run := .faulted .divisionByZero 2 })).map
      State.observe = some (.faulted .divisionByZero 2 []) := by decide

/-- The harness's word is the first instruction after reset. -/
theorem test_fetch_word : (after (step (State.reset.withFetchWord 32 0x0003E801))).map
    (fun t => (t.readReg 0, t.pc)) = some (1000, 1) := by decide

/-! ### Assembly text -/

/-- V-T4, V-T7, V-T17: `  add   R1    R0  `, `copyrs R0 65535`, `jump -32768`. -/
theorem test_parse_lines :
    parse [' ', ' ', 'a', 'd', 'd', ' ', ' ', 'R', '1', ' ', 'R', '0', ' '] = .ok [.add 1 0] ∧
    parse ['c', 'o', 'p', 'y', 'r', 's', ' ', 'R', '0', ' ', '6', '5', '5', '3', '5'] =
      .ok [.storeToStack 0 65535] ∧
    parse ['j', 'u', 'm', 'p', ' ', '-', '3', '2', '7', '6', '8'] = .ok [.jump 0x8000] := by decide

/-- V-T5: a comment line and a blank line, then `ret`. -/
theorem test_parse_comment : parse ['#', ' ', 'a', '\n', '\n', 'r', 'e', 't', '\n'] = .ok [.ret] := by
  decide

/-- V-T8, V-T10, V-T14, V-T16, and V-T20 in short: `ret`, `addx`. -/
theorem test_parse_errors :
    parse ['a', 'd', 'd', 'x', ' ', 'R', '0', ' ', 'R', '1'] = .error ⟨.unknownMnemonic, 1⟩ ∧
    parse ['a', 'd', 'd', ' ', 'R', '0'] = .error ⟨.wrongArity, 1⟩ ∧
    parse ['p', 'u', 't', 'r', 'e', 'g', ' ', '5', ' ', 'R', '1', '6'] = .error ⟨.badOperand, 1⟩ ∧
    parse ['j', 'u', 'm', 'p', ' ', '3', '2', '7', '6', '8'] = .error ⟨.badOperand, 1⟩ ∧
    parse ['r', 'e', 't', '\n', 'a', 'd', 'd', 'x', '\n', 'r', 'e', 't'] =
      .error ⟨.unknownMnemonic, 2⟩ := by decide

/-- V-T13, V-T15, V-T18, V-T19: a sign on an immediate, `r0`, `0x10`, a comment after operands. -/
theorem test_parse_strictness :
    parse ['p', 'u', 't', 'r', 'e', 'g', ' ', '-', '1', ' ', 'R', '0'] = .error ⟨.badOperand, 1⟩ ∧
    parse ['p', 'u', 't', 'r', 'e', 'g', ' ', '5', ' ', 'r', '0'] = .error ⟨.badOperand, 1⟩ ∧
    parse ['p', 'u', 't', 'r', 'e', 'g', ' ', '0', 'x', '1', '0', ' ', 'R', '0'] =
      .error ⟨.badOperand, 1⟩ ∧
    parse ['p', 'r', 'i', 'n', 't', ' ', 'R', '0', ' ', '#'] = .error ⟨.wrongArity, 1⟩ := by decide

/-- R81's example: `putreg 20 R0`, `jump -5`, `ret`. -/
theorem test_format : format [.loadImmediate 20 0, .jump (-5), .ret] =
    [['p', 'u', 't', 'r', 'e', 'g', ' ', '2', '0', ' ', 'R', '0'],
     ['j', 'u', 'm', 'p', ' ', '-', '5'], ['r', 'e', 't']] := by decide

/-! ### Witnesses: states and operands that meet an obligation's hypotheses, at the boundaries -/

theorem witness_DecodeInvertsEncode :
    Config.spec.TagsUnique ∧ { Config.spec with byteOrder := .big }.TagsUnique :=
  ⟨spec_tagsUnique, spec_tagsUnique⟩
theorem witness_EncodeInvertsDecode :
    decodeWith Config.spec [0x09, 0x0F, 0x00] = .ok [.print 15, .ret] := by decide
theorem witness_DecodeFailsOnAnUnassignedTag :
    0x13 ≤ (0x13 : Byte).toNat ∧ 0x13 ≤ (0xFF : Byte).toNat := by decide
theorem witness_DecodeFailsOnATruncatedInstruction :
    (0 < 1 ∧ 1 < (encode [.print 0]).length) ∧ (0 < 3 ∧ 3 < (encode [.loadImmediate 1 2]).length) :=
  by decide
theorem witness_DecodeFailsOnABadRegisterByte :
    16 ≤ (16 : Byte).toNat ∧ 16 ≤ (255 : Byte).toNat ∧ opcodeFormat .loadImmediate = .ir ∧
      opcodeFormat .storeToStack = .ri ∧ opcodeFormat .add = .rr ∧ opcodeFormat .print = .r := by
  decide
theorem witness_StepRunsTheDecodedInstruction :
    decode [0x00, 0x09, 0x02] = .ok [.ret, .print 2] ∧
    (machine [.ret, .print 2] 1 false []).run = .running ∧
    [Instr.ret, .print 2][(machine [.ret, .print 2] 1 false []).pc]? = some (.print 2) := by decide
theorem witness_LoadedStreamRunsItsKthInstruction :
    [Instr.ret].length + 1 + [Instr.print 0].length ≤ 3 ∧
    ∃ t : State, t.prog = [.ret, .add 1 0, .print 0] ∧ t.run = .running ∧ t.pc = [Instr.ret].length :=
  ⟨by decide, machine [.ret, .add 1 0, .print 0] 1 false [], by decide⟩
theorem witness_BootLoadsWholeStreamsOnly :
    (∃ s, bootBytes 1 [0x00] = .ok s) ∧ decode [0x00, 0x1F] = .error (.unknownOpcode 1 0x1F) :=
  ⟨⟨_, rfl⟩, by decide⟩
theorem witness_PlacedWordRunsNext : decodeTableWord 24 0x000105 = some (.add 1 0) := by decide
theorem witness_ParseFailsAtTheFirstBadLine :
    '\n' ∉ ['a', 'd', 'd', 'x'] ∧
      parseLine Config.spec ['a', 'd', 'd', 'x'] = .error .unknownMnemonic := by decide
theorem witness_ResetMeetsTheInvariant : ∃ s, boot 1 [.ret] = .ok s := ⟨_, rfl⟩

/-- A Running state in the middle of a program, with a stored word and a printed value. -/
def midRun : State :=
  { machine [.ret, .storeToStack 1 9, .print 1] 1 true [(1, 4)] with stack := [(5, 6)], out := [7] }

theorem witness_StepKeepsTheInvariant : midRun.inv = true ∧ ∃ t, step midRun = .next t :=
  ⟨by decide, _, rfl⟩
theorem witness_RunsFromLegalStatesNeverStop : midRun.inv = true := by decide
theorem witness_RunningOffTheEndHalts :
    (machine (returns 2) 2 true []).run = .running ∧ (machine (returns 2) 2 true []).pc = 2 ∧
      (machine (returns 2) 2 true []).prog.length = 2 := by decide
theorem witness_InstructionPointerAboveTheProgramStops :
    (machine (returns 2) 3 true []).run = .running ∧
      (machine (returns 2) 3 true []).prog.length < (machine (returns 2) 3 true []).pc := by decide
theorem witness_TerminalStatesAreFinal :
    { midRun with run := .halted 3 }.terminal = true ∧
      { midRun with run := .faulted .outOfBounds 1 }.terminal = true := by decide
theorem witness_RunEndsOnlyByReturnEndOrFault :
    (midRun.run = .running ∧ ∃ t, step midRun = .next t ∧ t.run = .running) ∧
    (∃ t, step (machine [.ret] 0 false []) = .next t ∧ t.run = .halted 0) ∧
    (∃ t, step (machine [.div 1 0] 0 false []) = .next t ∧ t.run = .faulted .divisionByZero 0) ∧
    (∃ t, step (machine [.jump (-2)] 0 false []) = .next t ∧ t.run = .faulted .outOfBounds 0) :=
  ⟨⟨rfl, _, rfl, rfl⟩, ⟨_, rfl, rfl⟩, ⟨_, rfl, rfl⟩, ⟨_, rfl, rfl⟩⟩
theorem witness_StoreToStackWritesOneWord : Memory.wf midRun.stack = true := by decide
theorem witness_OnlyLoadsAndStoresTouchTheStack :
    (∃ t, exec (.add 1 2) midRun = .next t ∧ t.safe = true) ∧
    (∃ t, exec (.loadFromStack 5 2) midRun = .next t) ∧
    Memory.read [(5, 6), (8, 1)] (effectiveAddress 5) = midRun.stack.read (effectiveAddress 5) :=
  ⟨⟨_, rfl, rfl⟩, ⟨_, rfl⟩, by decide⟩
theorem witness_WordKeepsItsValueWithoutAStoreToIt :
    Memory.wf midRun.stack = true ∧ (∀ src, Instr.storeToStack src 5 ∉ midRun.prog) ∧
      ∃ t, runFor 2 midRun = .next t ∧ t.safe = true :=
  ⟨by decide, by decide, _, rfl, rfl⟩
theorem witness_LoadReturnsTheStoredWord : Memory.wf midRun.stack = true ∧
    ∃ t u, exec (.storeToStack 1 65535) midRun = .next t ∧
      exec (.loadFromStack 65535 2) t = .next u := ⟨by decide, _, _, rfl, rfl⟩
theorem witness_CanonicalMemoriesAreEqualWhenTheyReadAlike :
    Memory.wf [(0, 1), (65535, 2)] = true := by decide
theorem witness_DivWritesTheQuotient : (machine [] 0 false [(1, 1)]).readReg 1 ≠ 0 := by decide
theorem witness_DivByZeroFaults : (machine [] 0 false [(0, 5)]).readReg 1 = 0 := by decide
theorem witness_DivisionByZeroIsRaisedByDivAlone : midRun.safe = true ∧
    (∃ t, exec (.div 0 1) midRun = .next t ∧ t.run = .faulted .divisionByZero 1) ∧
    ∃ t, exec (.div 1 0) midRun = .next t ∧ t.run = .running :=
  ⟨by decide, ⟨_, rfl, rfl⟩, _, rfl, rfl⟩
theorem witness_AddUndoesSub : (1 : Reg) ≠ 0 ∧ ∃ t u, exec (.sub 1 0) midRun = .next t ∧
    exec (.add 1 0) t = .next u := ⟨by decide, _, _, rfl, rfl⟩
theorem witness_CopyDivMulSubGiveTheRemainder :
    (1 : Reg) ≠ 0 ∧ (1 : Reg) ≠ 2 ∧ (0 : Reg) ≠ 2 ∧ midRun.readReg 1 ≠ 0 := by decide
theorem witness_OverflowPoliciesAgreeWhereTheResultFits :
    let s := machine [] 0 false [(0, 65534), (1, 1)]
    (0 ≤ ((s.readReg 0).toNat : Int) + (s.readReg 1).toNat ∧
      ((s.readReg 0).toNat : Int) + (s.readReg 1).toNat ≤ 65535) := by decide
theorem witness_OutputOnlyGrows : (∃ t, runFor 2 midRun = .next t ∧ t.out = [7, 4]) ∧
    ∃ t, exec (.add 1 2) midRun = .next t := ⟨⟨_, rfl, by decide⟩, _, rfl⟩

/-- Targets 0 and LEN of a program of three instructions, from index 1. -/
theorem witness_JumpGoesToItsTarget :
    ((0 : Nat) : Int) = ((machine (returns 3) 1 false []).pc : Int) + 1 + asSint16 (-2) ∧
    ((3 : Nat) : Int) = ((machine (returns 3) 1 false []).pc : Int) + 1 + asSint16 1 ∧
    3 ≤ (machine (returns 3) 1 false []).prog.length := by decide
theorem witness_JumpIfTrueFollowsTheFlag :
    ((machine (returns 3) 1 true []).flag = true ∧
      ((0 : Nat) : Int) = ((machine (returns 3) 1 true []).pc : Int) + 1 + asSint16 (-2) ∧
      ((3 : Nat) : Int) = ((machine (returns 3) 1 true []).pc : Int) + 1 + asSint16 1 ∧
      3 ≤ (machine (returns 3) 1 true []).prog.length) ∧
    (machine (returns 3) 1 false []).flag = false := by decide
theorem witness_JumpIfFalseFollowsTheFlag :
    ((machine (returns 3) 1 false []).flag = false ∧
      ((0 : Nat) : Int) = ((machine (returns 3) 1 false []).pc : Int) + 1 + asSint16 (-2) ∧
      ((3 : Nat) : Int) = ((machine (returns 3) 1 false []).pc : Int) + 1 + asSint16 1 ∧
      3 ≤ (machine (returns 3) 1 false []).prog.length) ∧
    (machine (returns 3) 1 true []).flag = true := by decide

/-- Targets -1 and LEN + 1, for each of the three jumps. -/
theorem witness_TakenJumpOutsideTheProgramFaults :
    jumpTaken (.jump (-3)) (machine (returns 3) 1 false []) = some (-3) ∧
    jumpTaken (.jumpIfTrue 2) (machine (returns 3) 1 true []) = some 2 ∧
    jumpTaken (.jumpIfFalse 2) (machine (returns 3) 1 false []) = some 2 ∧
    ((machine (returns 3) 1 false []).pc : Int) + 1 + asSint16 (-3) < 0 ∧
    ((machine (returns 3) 1 true []).prog.length : Int) <
      ((machine (returns 3) 1 true []).pc : Int) + 1 + asSint16 2 := by decide
theorem witness_OutOfBoundsIsRaisedByTakenJumpsAlone :
    (machine (returns 3) 1 true []).safe = true ∧
    (∃ t, exec (.jumpIfTrue 2) (machine (returns 3) 1 true []) = .next t ∧
      t.run = .faulted .outOfBounds 1) ∧
    ∃ t, exec (.jumpIfTrue 1) (machine (returns 3) 1 true []) = .next t ∧ t.run = .running :=
  ⟨by decide, ⟨_, rfl, rfl⟩, _, rfl, rfl⟩
theorem witness_InstructionPointerMovesAsTheTableSays :
    (∃ t, exec .ret midRun = .next t ∧ t.safe = true) ∧
    (∃ t, exec (.jumpIfTrue 1) midRun = .next t ∧ t.safe = true ∧
      jumpTaken (.jumpIfTrue 1) midRun = some 1) ∧
    ∃ t, exec (.jumpIfFalse 9) midRun = .next t ∧ t.safe = true ∧
      jumpTaken (.jumpIfFalse 9) midRun = none :=
  ⟨⟨_, rfl, rfl⟩, ⟨_, rfl, rfl, rfl⟩, _, rfl, rfl, rfl⟩
theorem witness_FlagIsWrittenByComparesAndReadByConditionalJumps :
    (∃ t, exec (.add 1 2) midRun = .next t ∧ t.safe = true ∧ (Instr.add 1 2).isCompare = false) ∧
    ∃ t, exec (.compareEqual 0 1) midRun = .next t ∧ t.safe = true ∧
      (Instr.compareEqual 0 1).isConditionalJump = false :=
  ⟨⟨_, rfl, rfl, rfl⟩, _, rfl, rfl, rfl⟩
theorem witness_RegistersReadAndWrittenAreThoseOfTheTable :
    (∃ t, exec (.add 1 2) midRun = .next t ∧ t.safe = true ∧
      (Instr.add 1 2).writes ≠ some 1) ∧
    (∃ t, exec (.add 1 2) midRun = .next t ∧ (3 : Reg) ∉ (Instr.add 1 2).reads) ∧
    ∃ t, exec (.loadImmediate 5 3) midRun = .next t ∧ (3 : Reg) ∉ (Instr.loadImmediate 5 3).reads :=
  ⟨⟨_, rfl, rfl, by decide⟩, ⟨_, rfl, by decide⟩, _, rfl, by decide⟩
theorem witness_ProgramStoreNeverChanges : ∃ t, runFor 3 midRun = .next t := ⟨_, rfl⟩

end Sys2Proof.Tests
end

section
/-! SUPPORT. The state: the reset values (R28, R190) and the condition flag (R17). The flag's part is
one rule per state operation and per shared operation, saying how it commutes with a flag write; the
instruction's rule is put together from them. -/

namespace Sys2Proof.Machine

/-! ### Reset (R28, R190) -/

@[simp] theorem State.hostReset_readReg (s : State) (r : Reg) : s.hostReset.readReg r = 0 := by
  simp [State.hostReset, State.reset, State.readReg]

@[simp] theorem State.hostReset_flag (s : State) : s.hostReset.flag = false := rfl
@[simp] theorem State.hostReset_stack (s : State) : s.hostReset.stack = [] := rfl
@[simp] theorem State.hostReset_out (s : State) : s.hostReset.out = [] := rfl

/-- Settles O14: each piece of state has its reset value by its own rule, and an empty stack memory
reads as 0 at every index. -/
theorem resetPutsEveryPieceAtItsValue : Obligations.ResetPutsEveryPieceAtItsValue := by
  intro s
  have hstack : ∀ addr, s.hostReset.stack.read addr = 0 := fun addr => by
    rw [State.hostReset_stack, Memory.read_nil, Memory.unlisted]
  exact ⟨s.hostReset_readReg, hstack, s.hostReset_pc, s.hostReset_flag, s.hostReset_run,
    s.hostReset_out, s.hostReset_prog⟩

/-! ### A flag write commutes with every other state update -/

@[simp] theorem State.setFlag_setFlag (s : State) (b c : Bool) :
    (s.setFlag b).setFlag c = s.setFlag c := rfl
@[simp] theorem State.setFlag_memRead (s : State) (b : Bool) (a : Nat) :
    (s.setFlag b).memRead a = s.memRead a := rfl
theorem State.setFlag_writeReg (s : State) (b : Bool) (r : Reg) (v : Word) :
    (s.setFlag b).writeReg r v = (s.writeReg r v).setFlag b := rfl
theorem State.setFlag_memWrite (s : State) (b : Bool) (a : Nat) (v : Word) :
    (s.setFlag b).memWrite a v = (s.memWrite a v).setFlag b := rfl
theorem State.setFlag_emit (s : State) (b : Bool) (v : Word) :
    (s.setFlag b).emit v = (s.emit v).setFlag b := rfl
theorem State.setFlag_setPc (s : State) (b : Bool) (n : Nat) :
    (s.setFlag b).setPc n = (s.setPc n).setFlag b := rfl

/-- The host does not observe the flag (R4). -/
@[simp] theorem State.observe_setFlag (s : State) (b : Bool) :
    (s.setFlag b).observe = s.observe := rfl

/-! ### A flag write before a shared operation is a flag write after it -/

/-- The outcome with `f` applied to its next state; a stop of the model stays as it is. -/
def mapNext (f : State → State) : Result → Result
  | .next s => .next (f s)
  | .fault r => .fault r
  | .refused r => .refused r

@[simp] theorem mapNext_next (f : State → State) (s : State) :
    mapNext f (.next s) = .next (f s) := rfl

theorem complete_setFlag (s : State) (b : Bool) :
    complete (s.setFlag b) = mapNext (State.setFlag · b) (complete s) := rfl

theorem raise_setFlag (k : FaultKind) (s : State) (b : Bool) :
    raise k (s.setFlag b) = mapNext (State.setFlag · b) (raise k s) := rfl

theorem halt_setFlag (w : Word) (s : State) (b : Bool) :
    halt w (s.setFlag b) = mapNext (State.setFlag · b) (halt w s) := rfl

/-- A taken jump reads the instruction pointer and the program's length, not the flag (R140, R144). -/
theorem takeJump_setFlag (c : Config) (offset : Word) (s : State) (b : Bool) :
    takeJump c offset (s.setFlag b) = mapNext (State.setFlag · b) (takeJump c offset s) := by
  by_cases hl : targetLegal (jumpTarget c s.pc offset) s.prog.length = true
  · simp only [takeJump, State.setFlag_pc, State.setFlag_prog, hl, if_true, State.setFlag_setPc,
      mapNext_next]
  · simp only [takeJump, State.setFlag_pc, State.setFlag_prog, hl, Bool.false_eq_true,
      if_false, raise_setFlag]

theorem accumulate_setFlag (op : Int → Int → Int) (x y : Reg) (s : State) (b : Bool) :
    accumulate Config.spec op x y (s.setFlag b) =
      mapNext (State.setFlag · b) (accumulate Config.spec op x y s) := by
  simp only [accumulate_eq, State.setFlag_readReg, State.setFlag_writeReg, complete_setFlag]

/-- Neither end of a division, the fault or the quotient, depends on the flag (R124). -/
theorem divideInto_setFlag (c : Config) (x y : Reg) (s : State) (b : Bool) :
    divideInto c x y (s.setFlag b) = mapNext (State.setFlag · b) (divideInto c x y s) := by
  by_cases hz : (s.readReg x).toNat = 0
  · simp only [divideInto, State.setFlag_readReg, hz, if_true, raise_setFlag]
  · simp only [divideInto, State.setFlag_readReg, hz, if_false, State.setFlag_writeReg,
      complete_setFlag]

/-- A compare overwrites the flag, so what it held before is lost (R150). -/
theorem compareBy_setFlag (relation : Word → Word → Bool) (x y : Reg) (s : State) (b : Bool) :
    compareBy relation x y (s.setFlag b) = compareBy relation x y s := by
  simp only [compareBy_eq, State.setFlag_setFlag, State.setFlag_readReg]

/-! ### Instructions and the flag -/

/-- No instruction but a compare writes the flag (R17). That this holds of a faulting instruction too
is the model's choice (log 18), which the obligation does not read. -/
theorem exec_keeps_flag {i : Instr} {s t : State} (h : exec i s = .next t)
    (hc : i.isCompare = false) : t.flag = s.flag := by
  rcases exec_cases h with ⟨-, rfl⟩ | ⟨d, v, -, -, -, -, -, -, -, rfl⟩ | ⟨src, offset, -, rfl⟩ |
    ⟨r, -, rfl⟩ | ⟨offset, -, n, -, -, rfl⟩ | ⟨offset, -, -, rfl⟩ | ⟨x, y, -, -, rfl⟩ |
    ⟨-, -, rfl⟩ | ⟨hcompare, -⟩
  on_goal -1 => simp [hc] at hcompare
  all_goals rfl

/-- What a compare does is independent of the flag (R17, R150). -/
theorem exec_setFlag_of_isCompare {i : Instr} (hc : i.isCompare = true) (s : State) (b : Bool) :
    exec i (s.setFlag b) = exec i s := by
  cases i with
  | compareEqual | compareNotEqual | compareLess | compareLessOrEqual | compareGreater
  | compareGreaterOrEqual => exact compareBy_setFlag ..
  | _ => simp [Instr.isCompare] at hc

/-- An instruction that is neither a compare nor a conditional jump carries the flag through unread
(R17). -/
theorem exec_setFlag_of_not_isCompare {i : Instr} (hc : i.isCompare = false)
    (hj : i.isConditionalJump = false) (s : State) (b : Bool) :
    exec i (s.setFlag b) = mapNext (State.setFlag · b) (exec i s) := by
  cases i with
  | ret => exact halt_setFlag ..
  | loadImmediate | loadFromStack | copyRegToReg =>
    simp only [exec, execLoadImmediate, execLoadFromStack, execCopyRegToReg, withStackAddress_eq,
      State.setFlag_memRead, State.setFlag_readReg, State.setFlag_writeReg, complete_setFlag]
  | storeToStack =>
    simp only [exec, execStoreToStack, withStackAddress_eq, State.setFlag_readReg,
      State.setFlag_memWrite, complete_setFlag]
  | print =>
    simp only [exec, execPrint, State.setFlag_readReg, State.setFlag_emit, complete_setFlag]
  | add | sub | mul => exact accumulate_setFlag ..
  | div => exact divideInto_setFlag ..
  | jump => exact takeJump_setFlag ..
  | jumpIfTrue | jumpIfFalse => simp [Instr.isConditionalJump] at hj
  | _ => simp [Instr.isCompare] at hc

/-- The two cases together: the next state under another flag, for every instruction that is no
conditional jump. -/
theorem exec_setFlag_eq_next {i : Instr} {s t : State} (h : exec i s = .next t)
    (hj : i.isConditionalJump = false) (b : Bool) :
    exec i (s.setFlag b) = .next (if i.isCompare = true then t else t.setFlag b) := by
  cases hc : i.isCompare
  · simp [exec_setFlag_of_not_isCompare hc hj, h]
  · simp [exec_setFlag_of_isCompare hc, h]

/-- Settles O55: the writers by the case analysis of an instruction's next state, the readers by
running the instruction with the flag replaced. -/
theorem flagIsWrittenByComparesAndReadByConditionalJumps :
    Obligations.FlagIsWrittenByComparesAndReadByConditionalJumps := by
  refine ⟨rfl, fun i s t h _ hc => exec_keeps_flag h hc, fun i s t b h hj => ?_⟩
  refine ⟨_, exec_setFlag_eq_next h hj b, ?_, fun _ => rfl⟩
  split
  · rfl
  · exact State.observe_setFlag t b

end Sys2Proof.Machine
end

section
/-! SUPPORT. Data movement (`41_data_movement.md` R110 to R113): each instruction's next state as one
state update and the default advance, and the whole effect of such an update. -/

namespace Sys2Proof.Machine

/-! ### The whole effect of one update and the default advance -/

/-- A register write followed by the default advance has the effect that every instruction with a
destination register is to have (R13, R15). -/
theorem writesRegister_advance (s : State) (d : Reg) (v : Word) :
    WritesRegister s (s.writeReg d v).advance d v := by
  have hregs : OnlyRegister s (s.writeReg d v).advance d v := fun r => by
    rw [State.advance_readReg, State.readReg_writeReg]
  have hstack : SameStack s (s.writeReg d v).advance := fun addr => by
    rw [State.advance_stack, State.writeReg_stack]
  exact ⟨hregs, rfl, rfl, rfl, hstack, rfl, rfl⟩

/-- What a store to one word followed by the default advance does to every stack read (R42). -/
theorem read_memWrite_advance {s : State} (h : s.stack.wf = true) (a : Nat) (v : Word)
    (addr : Nat) :
    (s.memWrite a v).advance.stack.read addr = if addr = a then v else s.stack.read addr := by
  rw [State.advance_stack, State.memWrite_stack, Memory.read_write h]

/-! ### The four instructions -/

theorem exec_loadImmediate (immediate : Word) (dest : Reg) (s : State) :
    exec (.loadImmediate immediate dest) s = .next (s.writeReg dest immediate).advance := rfl

/-- A load completes at every offset, since the bounds guard is never taken (R43, R111). -/
theorem exec_loadFromStack (offset : Word) (dest : Reg) (s : State) :
    exec (.loadFromStack offset dest) s =
      .next (s.writeReg dest (s.stack.read (effectiveAddress offset))).advance := by
  simp only [exec, execLoadFromStack, withStackAddress_eq, complete, State.memRead]

theorem exec_copyRegToReg (src dest : Reg) (s : State) :
    exec (.copyRegToReg src dest) s = .next (s.writeReg dest (s.readReg src)).advance := rfl

/-- A store completes at every offset, since the bounds guard is never taken (R43, R113). -/
theorem exec_storeToStack (src : Reg) (offset : Word) (s : State) :
    exec (.storeToStack src offset) s =
      .next (s.memWrite (effectiveAddress offset) (s.readReg src)).advance := by
  simp only [exec, execStoreToStack, withStackAddress_eq, complete]

/-! ### The obligations -/

/-- Settles O24: the next state is one register write and the default advance. -/
theorem loadImmediateWritesTheConstant : Obligations.LoadImmediateWritesTheConstant :=
  fun immediate dest s => ⟨_, exec_loadImmediate immediate dest s, writesRegister_advance ..⟩

/-- Settles O25: the address is the offset itself (R41), and what is written is the word there. -/
theorem loadFromStackReadsTheAddressedWord : Obligations.LoadFromStackReadsTheAddressedWord :=
  fun offset dest s => ⟨_, exec_loadFromStack offset dest s, writesRegister_advance ..⟩

/-- Settles O26: the source is read in the state before the write, so `src = dest` is no exception. -/
theorem copyRegToRegCopies : Obligations.CopyRegToRegCopies :=
  fun src dest s => ⟨_, exec_copyRegToReg src dest s, writesRegister_advance ..⟩

/-- Settles O27: the stack reads by the canonical form of the memory written, everything else by the
rules of a store and of the default advance. -/
theorem storeToStackWritesOneWord : Obligations.StoreToStackWritesOneWord := by
  intro src offset s hwf
  have hregs : SameRegisters s
      (s.memWrite (effectiveAddress offset) (s.readReg src)).advance := fun r => by
    rw [State.advance_readReg, State.memWrite_readReg]
  exact ⟨_, exec_storeToStack src offset s, read_memWrite_advance hwf _ _, rfl, rfl, rfl, rfl,
    hregs, rfl, rfl⟩

end Sys2Proof.Machine
end

section
/-! SUPPORT. The compares (`45_compare.md` R150 to R152): the whole effect of a flag write and the
default advance, what every compare does for its relation, and the two instructions that test
equality. -/

namespace Sys2Proof.Machine

/-! ### The whole effect of a compare -/

/-- A flag write followed by the default advance has the effect that every compare is to have (R15,
R150). -/
theorem writesFlag_advance (s : State) (b : Bool) : WritesFlag s (s.setFlag b).advance b := by
  have hregs : SameRegisters s (s.setFlag b).advance := fun r => by
    rw [State.advance_readReg, State.setFlag_readReg]
  have hstack : SameStack s (s.setFlag b).advance := fun addr => by
    rw [State.advance_stack, State.setFlag_stack]
  exact ⟨rfl, rfl, hregs, rfl, hstack, rfl, rfl⟩

/-- No compare faults, whatever its relation (R150). -/
theorem compareBy_writesFlag (relation : Word → Word → Bool) (a b : Reg) (s : State) :
    ∃ t, compareBy relation a b s = .next t ∧
      WritesFlag s t (relation (s.readReg a) (s.readReg b)) :=
  ⟨_, (compareBy_eq relation a b s).trans (complete_eq_next.2 rfl), writesFlag_advance ..⟩

/-! ### The two tests of equality -/

theorem exec_compareEqual (a b : Reg) (s : State) :
    exec (.compareEqual a b) s = compareBy flagEqual a b s := rfl

theorem exec_compareNotEqual (a b : Reg) (s : State) :
    exec (.compareNotEqual a b) s = compareBy flagNotEqual a b s := rfl

/-- Settles O49: CompareEqual is the compare of the relation `p = q` (R151). -/
theorem compareEqualSetsTheFlag : Obligations.CompareEqualSetsTheFlag := by
  intro a b s
  rw [exec_compareEqual]
  exact compareBy_writesFlag flagEqual a b s

/-- Settles O50: CompareNotEqual is the compare of the relation `p ≠ q` (R152). -/
theorem compareNotEqualSetsTheFlag : Obligations.CompareNotEqualSetsTheFlag := by
  intro a b s
  rw [exec_compareNotEqual]
  exact compareBy_writesFlag flagNotEqual a b s

end Sys2Proof.Machine
end

section
/-! SUPPORT. The execution faults (`60_exceptions.md` R162, R164): every way in which an instruction
enters Faulted, and the division that always does. -/

namespace Sys2Proof.Machine

/-- A safe state is in no Faulted run state, of whatever kind and index. -/
theorem State.run_ne_faulted {s : State} (h : s.safe = true) (k : FaultKind) (n : Nat) :
    s.run ≠ .faulted k n := by
  intro hr
  simp [State.safe, hr] at h

/-- The two ways into Faulted from a safe state, each recording the index of the instruction itself:
a taken jump with its target outside the program, and a division by zero (R144, R162, R164). -/
theorem exec_faulted_cases {i : Instr} {s t : State} {k : FaultKind} {n : Nat}
    (hsafe : s.safe = true) (h : exec i s = .next t) (hf : t.run = .faulted k n) :
    n = s.pc ∧
      ((k = .outOfBounds ∧ ∃ offset, jumpTaken i s = some offset ∧ TargetOutside s offset) ∨
        (k = .divisionByZero ∧ ∃ a b, i = .div a b ∧ s.readReg a = 0)) := by
  have hrun : s.run ≠ .faulted k n := State.run_ne_faulted hsafe k n
  rcases exec_cases h with ⟨-, rfl⟩ | ⟨d, v, -, -, -, -, -, -, -, rfl⟩ | ⟨src, offset, -, rfl⟩ |
    ⟨r, -, rfl⟩ | ⟨offset, -, m, -, -, rfl⟩ | ⟨offset, htaken, hout, rfl⟩ | ⟨a, b, hi, hz, rfl⟩ |
    ⟨-, -, rfl⟩ | ⟨-, -, c, rfl⟩
  · cases hf
  · exact absurd hf hrun
  · exact absurd hf hrun
  · exact absurd hf hrun
  · exact absurd hf hrun
  · cases hf
    exact ⟨rfl, .inl ⟨rfl, offset, htaken, hout⟩⟩
  · cases hf
    exact ⟨rfl, .inr ⟨rfl, a, b, hi, hz⟩⟩
  · exact absurd hf hrun
  · exact absurd hf hrun

/-- A zero divisor is met before the register write, whatever the dividend (R124). -/
theorem exec_div_of_zero {a : Reg} {s : State} (hz : s.readReg a = 0) (b : Reg) :
    exec (.div a b) s = raise .divisionByZero s := by
  rcases divideInto_cases (a := a) (b := b) (s := s) rfl with ⟨-, hr⟩ | ⟨hpos, -⟩
  · exact hr
  · simp [hz] at hpos

/-- Settles O37: forwards by the two ways into Faulted, of which only the division is of this kind;
backwards by running that division. -/
theorem divisionByZeroIsRaisedByDivAlone : Obligations.DivisionByZeroIsRaisedByDivAlone := by
  intro i s t hsafe h
  constructor
  · rintro ⟨n, hf⟩
    rcases exec_faulted_cases hsafe h hf with ⟨-, ⟨hk, -⟩ | ⟨-, hdiv⟩⟩
    · cases hk
    · exact hdiv
  · rintro ⟨a, b, rfl, hz⟩
    rw [exec_div_of_zero hz, raise_eq_next] at h
    exact ⟨s.pc, by rw [← h]⟩

end Sys2Proof.Machine
end

section
/-! SUPPORT. The wire format (`30_encoding.md` R62 to R72): what each operand group answers, one
instruction both ways, and the loop of the decoder after the bytes of any program. -/

namespace Sys2Proof

/-! ### An operand group that reads whole: the bytes are those of the operands (R62, R69) -/

/-- Reading a register byte succeeds on that register's byte alone (R65). -/
theorem takeReg_eq_ok_iff {n : Nat} {q : Byte} {r : Reg} :
    takeReg n q = .ok r ↔ q = byteOfReg r := by
  constructor
  · intro h
    rcases takeReg_cases h with ⟨r', rfl, hr⟩ | ⟨-, hr⟩ <;> cases hr
    rfl
  · rintro rfl
    exact takeReg_byteOfReg n r

/-- A register byte of 16 or more is an InvalidRegister at its own offset (R65, R68). -/
theorem takeReg_of_le {q : Byte} (h : 16 ≤ q.toNat) (n : Nat) :
    takeReg n q = .error (.invalidRegister n q) := by
  simp [takeReg, regOfByte_none h]

/-- A split field is two bytes, and they join to the field (R63). -/
theorem splitField_cases (o : ByteOrder) (v : Word) :
    ∃ x y, splitField o v = [x, y] ∧ joinField o x y = v := by
  cases o
  · exact ⟨_, _, rfl, (joinField_lowByte_highByte v).1⟩
  · exact ⟨_, _, rfl, (joinField_lowByte_highByte v).2⟩

variable {c : Config} {pos : Nat} {bytes rest : List Byte} {i : Instr}

theorem takeIR_eq_ok_iff {mk : Word → Reg → Instr} :
    takeIR c pos mk bytes = .ok (i, rest) ↔
      ∃ v d, i = mk v d ∧ bytes = splitField c.byteOrder v ++ byteOfReg d :: rest := by
  constructor
  · intro h
    unfold takeIR at h
    split at h
    · next b1 b2 b3 _ =>
      split at h <;> cases h
      next d hd =>
      exact ⟨_, d, rfl, by simp [splitField_joinField, takeReg_eq_ok_iff.1 hd]⟩
    · cases h
  · rintro ⟨v, d, rfl, rfl⟩
    obtain ⟨x, y, hs, hj⟩ := splitField_cases c.byteOrder v
    simp [takeIR, hs, hj]

theorem takeRI_eq_ok_iff {mk : Reg → Word → Instr} :
    takeRI c pos mk bytes = .ok (i, rest) ↔
      ∃ s v, i = mk s v ∧ bytes = byteOfReg s :: (splitField c.byteOrder v ++ rest) := by
  constructor
  · intro h
    unfold takeRI at h
    split at h
    · split at h <;> cases h
      next s hs =>
      exact ⟨s, _, rfl, by simp [splitField_joinField, takeReg_eq_ok_iff.1 hs]⟩
    · cases h
  · rintro ⟨s, v, rfl, rfl⟩
    obtain ⟨x, y, hs, hj⟩ := splitField_cases c.byteOrder v
    simp [takeRI, hs, hj]

theorem takeRR_eq_ok_iff {mk : Reg → Reg → Instr} :
    takeRR pos mk bytes = .ok (i, rest) ↔
      ∃ a b, i = mk a b ∧ bytes = byteOfReg a :: byteOfReg b :: rest := by
  constructor
  · intro h
    unfold takeRR at h
    split at h
    · split at h
      · next a ha =>
        split at h <;> cases h
        next b hb =>
        exact ⟨a, b, rfl, by rw [takeReg_eq_ok_iff.1 ha, takeReg_eq_ok_iff.1 hb]⟩
      · cases h
    · cases h
  · rintro ⟨a, b, rfl, rfl⟩
    simp [takeRR]

theorem takeR_eq_ok_iff {mk : Reg → Instr} :
    takeR pos mk bytes = .ok (i, rest) ↔ ∃ r, i = mk r ∧ bytes = byteOfReg r :: rest := by
  constructor
  · intro h
    unfold takeR at h
    split at h
    · split at h <;> cases h
      next r hr =>
      exact ⟨r, rfl, by rw [takeReg_eq_ok_iff.1 hr]⟩
    · cases h
  · rintro ⟨r, rfl, rfl⟩
    simp [takeR]

theorem takeJ_eq_ok_iff {mk : Word → Instr} :
    takeJ c pos mk bytes = .ok (i, rest) ↔
      ∃ v, i = mk v ∧ bytes = splitField c.byteOrder v ++ rest := by
  constructor
  · intro h
    unfold takeJ at h
    split at h <;> cases h
    exact ⟨_, rfl, by simp [splitField_joinField]⟩
  · rintro ⟨v, rfl, rfl⟩
    obtain ⟨x, y, hs, hj⟩ := splitField_cases c.byteOrder v
    simp [takeJ, hs, hj]

/-! ### The operand groups by format -/

section Formats
variable {op : Opcode}

theorem takeOperands_ir (h : opcodeFormat op = .ir) :
    ∃ mk, ∀ c pos bytes, takeOperands c pos op bytes = takeIR c pos mk bytes := by
  cases op <;> cases h <;> exact ⟨_, fun _ _ _ => rfl⟩

theorem takeOperands_ri (h : opcodeFormat op = .ri) :
    ∃ mk, ∀ c pos bytes, takeOperands c pos op bytes = takeRI c pos mk bytes := by
  cases op <;> cases h
  exact ⟨_, fun _ _ _ => rfl⟩

theorem takeOperands_rr (h : opcodeFormat op = .rr) :
    ∃ mk, ∀ c pos bytes, takeOperands c pos op bytes = takeRR pos mk bytes := by
  cases op <;> cases h <;> exact ⟨_, fun _ _ _ => rfl⟩

theorem takeOperands_r (h : opcodeFormat op = .r) :
    ∃ mk, ∀ c pos bytes, takeOperands c pos op bytes = takeR pos mk bytes := by
  cases op <;> cases h
  exact ⟨_, fun _ _ _ => rfl⟩

theorem takeOperands_j (h : opcodeFormat op = .j) :
    ∃ mk, ∀ c pos bytes, takeOperands c pos op bytes = takeJ c pos mk bytes := by
  cases op <;> cases h <;> exact ⟨_, fun _ _ _ => rfl⟩

/-- Fewer operand bytes than the format has are Truncated, whatever they are: the length is checked
before any register byte (R68). -/
theorem takeOperands_truncated (h : bytes.length + 1 < formatLength (opcodeFormat op)) :
    takeOperands c pos op bytes = .error (.truncated pos) := by
  cases hf : opcodeFormat op <;> rw [hf] at h <;> simp only [formatLength] at h
  case n => omega
  case ir =>
    obtain ⟨mk, hop⟩ := takeOperands_ir hf
    rw [hop]
    match bytes, h with
    | [], _ | [_], _ | [_, _], _ => rfl
  case ri =>
    obtain ⟨mk, hop⟩ := takeOperands_ri hf
    rw [hop]
    match bytes, h with
    | [], _ | [_], _ | [_, _], _ => rfl
  case rr =>
    obtain ⟨mk, hop⟩ := takeOperands_rr hf
    rw [hop]
    match bytes, h with
    | [], _ | [_], _ => rfl
  case r =>
    obtain ⟨mk, hop⟩ := takeOperands_r hf
    rw [hop]
    match bytes, h with
    | [], _ => rfl
  case j =>
    obtain ⟨mk, hop⟩ := takeOperands_j hf
    rw [hop]
    match bytes, h with
    | [], _ | [_], _ => rfl

end Formats

/-! ### One instruction both ways -/

/-- What follows a variant's tag reads as the instruction `i` exactly when it begins with the operand
bytes of `i` and `i` is of that variant (R61, R69). -/
theorem takeOperands_eq_ok_iff {op : Opcode} :
    takeOperands c pos op bytes = .ok (i, rest) ↔
      i.opcode = op ∧ bytes = operandBytes c i ++ rest := by
  constructor
  · intro h
    cases op with
    | ret =>
      cases h
      exact ⟨rfl, rfl⟩
    | loadImmediate | loadFromStack =>
      obtain ⟨v, d, rfl, rfl⟩ := takeIR_eq_ok_iff.1 h
      exact ⟨rfl, by simp [operandBytes]⟩
    | storeToStack =>
      obtain ⟨s, v, rfl, rfl⟩ := takeRI_eq_ok_iff.1 h
      exact ⟨rfl, rfl⟩
    | print =>
      obtain ⟨r, rfl, rfl⟩ := takeR_eq_ok_iff.1 h
      exact ⟨rfl, rfl⟩
    | jump | jumpIfTrue | jumpIfFalse =>
      obtain ⟨v, rfl, rfl⟩ := takeJ_eq_ok_iff.1 h
      exact ⟨rfl, rfl⟩
    | _ =>
      obtain ⟨a, b, rfl, rfl⟩ := takeRR_eq_ok_iff.1 h
      exact ⟨rfl, rfl⟩
  · rintro ⟨rfl, rfl⟩
    cases i with
    | ret => rfl
    | loadImmediate v d | loadFromStack v d =>
      exact takeIR_eq_ok_iff.2 ⟨v, d, rfl, by simp [operandBytes]⟩
    | storeToStack s v => exact takeRI_eq_ok_iff.2 ⟨s, v, rfl, rfl⟩
    | print r => exact takeR_eq_ok_iff.2 ⟨r, rfl, rfl⟩
    | jump v | jumpIfTrue v | jumpIfFalse v => exact takeJ_eq_ok_iff.2 ⟨v, rfl, rfl⟩
    | _ => exact takeRR_eq_ok_iff.2 ⟨_, _, rfl, rfl⟩

/-- Under unique tags the decoder's step after a variant's tag is the reading of its operands (R66). -/
theorem decodeOne_tag (hc : c.TagsUnique) (pos : Nat) (op : Opcode) (bytes : List Byte) :
    decodeOne c pos (c.tag op :: bytes) = takeOperands c pos op bytes := by
  simp [decodeOne, opcodeOfTag_tag hc]

/-- The bytes of an instruction read back as that instruction, whatever follows them (R70). -/
theorem decodeOne_encodeInstr (hc : c.TagsUnique) (pos : Nat) (i : Instr) (rest : List Byte) :
    decodeOne c pos (encodeInstr c i ++ rest) = .ok (i, rest) := by
  rw [encodeInstr, List.cons_append, decodeOne_tag hc]
  exact takeOperands_eq_ok_iff.2 ⟨rfl, rfl⟩

/-- What reads as an instruction is that instruction's bytes and what follows them (R70). -/
theorem eq_encodeInstr_of_decodeOne (h : decodeOne c pos bytes = .ok (i, rest)) :
    bytes = encodeInstr c i ++ rest := by
  cases bytes with
  | nil => cases h
  | cons t bytes =>
    rw [decodeOne] at h
    split at h
    · cases h
    · next op hop =>
      obtain ⟨rfl, rfl⟩ := takeOperands_eq_ok_iff.1 h
      rw [encodeInstr, tag_of_opcodeOfTag hop, List.cons_append]

/-- An instruction cut short is Truncated at its tag (R68). -/
theorem decodeOne_truncated (hc : c.TagsUnique) (pos : Nat) {k : Nat} (hk : 0 < k)
    (hlt : k < i.byteLength) :
    decodeOne c pos ((encodeInstr c i).take k) = .error (.truncated pos) := by
  obtain ⟨k, rfl⟩ : ∃ m, k = m + 1 := ⟨k - 1, by omega⟩
  rw [encodeInstr, List.take_succ_cons, decodeOne_tag hc]
  apply takeOperands_truncated
  have hle : ((operandBytes c i).take k).length ≤ k := by simp
  exact lt_of_le_of_lt (Nat.succ_le_succ hle) hlt

/-! ### The loop -/

theorem encodeWith_cons (c : Config) (i : Instr) (p : List Instr) :
    encodeWith c (i :: p) = encodeInstr c i ++ encodeWith c p := rfl

/-- Every instruction has at least its tag byte (R61). -/
theorem length_le_length_encodeWith (c : Config) (p : List Instr) :
    p.length ≤ (encodeWith c p).length := by
  induction p with
  | nil => exact Nat.le_refl 0
  | cons i p ih =>
    rw [encodeWith_cons, encodeInstr]
    simp only [List.length_append, List.length_cons]
    omega

theorem decodeLoop_of_ok {fuel : Nat} (hb : bytes ≠ []) (h : decodeOne c pos bytes = .ok (i, rest)) :
    decodeLoop c (fuel + 1) pos bytes =
      (decodeLoop c fuel (pos + i.byteLength) rest).map (i :: ·) := by
  cases bytes with
  | nil => exact absurd rfl hb
  | cons b bytes =>
    rw [decodeLoop, h]
    dsimp only
    cases decodeLoop c fuel (pos + i.byteLength) rest <;> rfl

theorem decodeLoop_of_error {fuel : Nat} {e : DecodeError} (hb : bytes ≠ []) (hf : 0 < fuel)
    (h : decodeOne c pos bytes = .error e) : decodeLoop c fuel pos bytes = .error e := by
  cases bytes with
  | nil => exact absurd rfl hb
  | cons b bytes =>
    obtain ⟨fuel, rfl⟩ : ∃ m, fuel = m + 1 := ⟨fuel - 1, by omega⟩
    rw [decodeLoop, h]

/-- After the bytes of a program the loop goes on with what follows them, at their length. -/
theorem decodeLoop_encodeWith_append (hc : c.TagsUnique) (p : List Instr) (fuel pos : Nat)
    (rest : List Byte) :
    decodeLoop c (p.length + fuel) pos (encodeWith c p ++ rest) =
      (decodeLoop c fuel (pos + (encodeWith c p).length) rest).map (p ++ ·) := by
  induction p generalizing pos with
  | nil =>
    simp only [List.length_nil, Nat.zero_add, encodeWith, List.flatMap_nil, List.nil_append,
      Nat.add_zero]
    cases decodeLoop c fuel pos rest <;> rfl
  | cons i p ih =>
    have hone := decodeOne_encodeInstr hc pos i (encodeWith c p ++ rest)
    have hne : encodeInstr c i ++ (encodeWith c p ++ rest) ≠ [] := by simp [encodeInstr]
    rw [encodeWith_cons, List.append_assoc, List.length_cons, Nat.add_right_comm,
      decodeLoop_of_ok hne hone, ih, List.length_append, length_encodeInstr, Nat.add_assoc]
    cases decodeLoop c fuel _ rest <;> rfl

/-- What the loop decodes is encoded by the bytes it read (R70). -/
theorem encodeWith_of_decodeLoop {fuel : Nat} {p : List Instr}
    (h : decodeLoop c fuel pos bytes = .ok p) : encodeWith c p = bytes := by
  induction fuel generalizing pos bytes p with
  | zero =>
    cases bytes <;> cases h
    rfl
  | succ fuel ih =>
    rcases eq_or_ne bytes [] with rfl | hb
    · cases h
      rfl
    rcases hone : decodeOne c pos bytes with e | ⟨i, rest⟩
    · rw [decodeLoop_of_error hb (Nat.succ_pos fuel) hone] at h
      cases h
    · rw [decodeLoop_of_ok hb hone] at h
      rcases hrest : decodeLoop c fuel (pos + i.byteLength) rest with e | q <;>
        rw [hrest] at h <;> cases h
      rw [encodeWith_cons, ih hrest, ← eq_encodeInstr_of_decodeOne hone]

/-! ### The whole stream -/

theorem decodeWith_encodeWith (hc : c.TagsUnique) (p : List Instr) :
    decodeWith c (encodeWith c p) = .ok p := by
  have hlen := length_le_length_encodeWith c p
  have hloop := decodeLoop_encodeWith_append hc p ((encodeWith c p).length - p.length) 0 []
  rw [List.append_nil, Nat.add_sub_cancel' hlen] at hloop
  rw [decodeWith, hloop, decodeLoop]
  simp [Except.map]

/-- A stream that goes wrong after a valid program fails as a whole, with the error of the first
instruction that does not read, at the program's length (R68, R72). -/
theorem decode_encode_append_error {p : List Instr} {bytes : List Byte} {e : DecodeError}
    (hb : bytes ≠ []) (h : decodeOne Config.spec (encode p).length bytes = .error e) :
    decode (encode p ++ bytes) = .error e := by
  have hlen : p.length ≤ (encode p).length := length_le_length_encodeWith Config.spec p
  have hpos : 0 < bytes.length := List.length_pos_of_ne_nil hb
  have hfuel : (encode p ++ bytes).length =
      p.length + ((encode p).length - p.length + bytes.length) := by
    rw [List.length_append]
    omega
  rw [decode, decodeWith, hfuel, encode, decodeLoop_encodeWith_append spec_tagsUnique,
    Nat.zero_add, ← encode, decodeLoop_of_error hb (by omega) h]
  rfl

/-- The encoding of one instruction. -/
theorem encode_singleton (i : Instr) : encode [i] = encodeInstr Config.spec i := by
  simp [encode, encodeWith]

/-- The tags from 0x13 on select no variant (R66, D1). -/
theorem opcodeOfTag_unassigned {tag : Byte} (h : 0x13 ≤ tag.toNat) :
    opcodeOfTag Config.spec tag = none := by
  have hlt : ∀ op, (specTag op).toNat < 0x13 := by
    intro op
    cases op <;> decide
  apply List.find?_eq_none.2
  intro op _ heq
  have := hlt op
  rw [Config.spec_tag, beq_iff_eq] at heq
  rw [heq] at this
  omega

end Sys2Proof

namespace Sys2Proof.Machine

/-- Settles O2: the loop after the bytes of a program, with nothing after them. -/
theorem decodeInvertsEncode : Obligations.DecodeInvertsEncode :=
  ⟨fun _ p hc => decodeWith_encodeWith hc p, fun p => decodeWith_encodeWith spec_tagsUnique p⟩

/-- Settles O3: by induction on the fuel of the loop; tags need not be unique, since the variant a
tag selects has that tag. -/
theorem encodeInvertsDecode : Obligations.EncodeInvertsDecode :=
  fun _ _ _ h => encodeWith_of_decodeLoop h

/-- Settles O4: the tag selects no variant, whatever bytes follow it. -/
theorem decodeFailsOnAnUnassignedTag : Obligations.DecodeFailsOnAnUnassignedTag := by
  intro p tag rest htag
  apply decode_encode_append_error (List.cons_ne_nil _ _)
  simp [decodeOne, opcodeOfTag_unassigned htag]

/-- Settles O5: the tag is there, and its operands are too few for the format. -/
theorem decodeFailsOnATruncatedInstruction : Obligations.DecodeFailsOnATruncatedInstruction := by
  intro p i k hpos hlt
  rw [encode_singleton] at hlt ⊢
  have hne : (encodeInstr Config.spec i).take k ≠ [] := by
    rw [← List.length_pos_iff, List.length_take]
    omega
  rw [length_encodeInstr] at hlt
  exact decode_encode_append_error hne (decodeOne_truncated spec_tagsUnique _ hpos hlt)

/-- Settles O6: in each format the operands before the bad byte read, and the bad byte does not. -/
theorem decodeFailsOnABadRegisterByte : Obligations.DecodeFailsOnABadRegisterByte := by
  intro p op q x y r rest hq
  have hbad := takeReg_of_le hq
  have hstream : ∀ {bytes e},
      takeOperands Config.spec (encode p).length op bytes = .error e →
        decode (encode p ++ specTag op :: bytes) = .error e := fun {bytes e} h =>
    decode_encode_append_error (List.cons_ne_nil _ _)
      ((decodeOne_tag spec_tagsUnique _ op bytes).trans h)
  refine ⟨fun hf => ?ir, fun hf => ?ri, fun hf => ?left, fun hf => ?right, fun hf => ?r⟩ <;>
    apply hstream
  case ir =>
    obtain ⟨mk, hop⟩ := takeOperands_ir hf
    simp [hop, takeIR, hbad]
  case ri =>
    obtain ⟨mk, hop⟩ := takeOperands_ri hf
    simp [hop, takeRI, hbad]
  case left =>
    obtain ⟨mk, hop⟩ := takeOperands_rr hf
    simp [hop, takeRR, hbad]
  case right =>
    obtain ⟨mk, hop⟩ := takeOperands_rr hf
    simp [hop, takeRR, hbad]
  case r =>
    obtain ⟨mk, hop⟩ := takeOperands_r hf
    simp [hop, takeR, hbad]

/-- Settles O7: the first byte is the tag, which selects the variant and so the format. -/
theorem firstByteGivesTheLength : Obligations.FirstByteGivesTheLength := by
  intro i
  have hlen : (operandBytes Config.spec i).length + 1 = i.byteLength :=
    length_encodeInstr Config.spec i
  refine ⟨_, _, encode_singleton i, ?_, hlen⟩
  rw [tagLength, opcodeOfTag_tag spec_tagsUnique, hlen]
  rfl

/-- Settles O1: each byte string is the encoding of its program; the tag 0x1F is unassigned. -/
theorem decodeReadsTheSpecsByteStrings : Obligations.DecodeReadsTheSpecsByteStrings := by
  have hread : ∀ {p bytes}, encode p = bytes → decode bytes = .ok p := fun {p bytes} h =>
    h ▸ decodeInvertsEncode.2 p
  exact ⟨hread rfl, hread (by decide), hread (by decide), hread (by decide), hread (by decide),
    hread (by decide), hread (by decide), hread (by decide), hread (by decide), hread (by decide),
    hread (by decide), decodeFailsOnAnUnassignedTag [] 0x1F [] (by decide)⟩

end Sys2Proof.Machine
end

section
/-! SUPPORT. The assembly text (`30_encoding.md` R74 to R81): decimal literals read back, a canonical
line read back token by token, and the loop of the assembler after the lines of any program. -/

namespace Sys2Proof.Machine

/-! ### Decimal digits (R77, R81) -/

/-- A character that is a decimal digit (R77). -/
def IsDigit (ch : Char) : Prop := 48 ≤ ch.toNat ∧ ch.toNat ≤ 57

/-- A digit is none of the characters that the assembler treats apart: it is no white space and no
sign. -/
theorem IsDigit.isSpace_eq_false {ch : Char} (h : IsDigit ch) : isSpace ch = false := by
  obtain ⟨hlo, hhi⟩ := h
  simp only [isSpace, Bool.or_eq_false_iff, Bool.and_eq_false_iff, decide_eq_false_iff_not,
    beq_eq_false_iff_ne]
  omega

theorem IsDigit.ne_plus {ch : Char} (h : IsDigit ch) : ch ≠ '+' := by
  rintro rfl
  exact absurd h.1 (by decide)

theorem IsDigit.ne_minus {ch : Char} (h : IsDigit ch) : ch ≠ '-' := by
  rintro rfl
  exact absurd h.1 (by decide)

/-- The character that `decimalFuel` writes for a digit. -/
theorem digitChar_spec {d : Nat} (h : d < 10) :
    IsDigit (Char.ofNat (48 + d)) ∧ digitValue (Char.ofNat (48 + d)) = some d := by
  have key : ∀ d : Fin 10,
      (48 ≤ (Char.ofNat (48 + d.val)).toNat ∧ (Char.ofNat (48 + d.val)).toNat ≤ 57) ∧
        digitValue (Char.ofNat (48 + d.val)) = some d.val := by decide
  exact key ⟨d, h⟩

/-- Reading digits goes from left to right. -/
theorem digitsFrom_append {xs ys : List Char} {acc n : Nat} (h : digitsFrom acc xs = some n) :
    digitsFrom acc (xs ++ ys) = digitsFrom n ys := by
  induction xs generalizing acc with
  | nil =>
    cases h
    rfl
  | cons x xs ih =>
    rw [digitsFrom] at h
    rw [List.cons_append, digitsFrom]
    cases hx : digitValue x with
    | none => rw [hx] at h; cases h
    | some d => rw [hx] at h; exact ih h

theorem digitsFrom_digitChar {acc d : Nat} (h : d < 10) :
    digitsFrom acc [Char.ofNat (48 + d)] = some (10 * acc + d) := by
  simp [digitsFrom, (digitChar_spec h).2]

/-- The digits of a number: all digits, at least one, and they read back as the number. -/
theorem decimalFuel_spec {fuel n : Nat} (h : n < fuel) :
    (∀ ch ∈ decimalFuel fuel n, IsDigit ch) ∧ decimalFuel fuel n ≠ [] ∧
      digitsFrom 0 (decimalFuel fuel n) = some n := by
  induction fuel generalizing n with
  | zero => omega
  | succ fuel ih =>
    rw [decimalFuel]
    split
    · next hn =>
      refine ⟨fun ch hch => ?_, List.cons_ne_nil _ _, by rw [digitsFrom_digitChar hn]; simp⟩
      obtain rfl := List.mem_singleton.1 hch
      exact (digitChar_spec hn).1
    · next hn =>
      have hmod : n % 10 < 10 := Nat.mod_lt _ (by omega)
      obtain ⟨hdigits, -, hread⟩ := ih (n := n / 10) (by omega)
      refine ⟨fun ch hch => ?_, by simp, ?_⟩
      · rcases List.mem_append.1 hch with hch | hch
        · exact hdigits ch hch
        · obtain rfl := List.mem_singleton.1 hch
          exact (digitChar_spec hmod).1
      · rw [digitsFrom_append hread, digitsFrom_digitChar hmod, Nat.div_add_mod]

theorem isDigit_of_mem_decimal {n : Nat} {ch : Char} (h : ch ∈ decimal n) : IsDigit ch :=
  (decimalFuel_spec n.lt_succ_self).1 ch h

/-- The decimal text of a number begins with a digit. -/
theorem decimal_eq_cons (n : Nat) : ∃ ch rest, decimal n = ch :: rest ∧ IsDigit ch := by
  obtain ⟨hdigits, hne, -⟩ := decimalFuel_spec n.lt_succ_self
  obtain ⟨ch, rest, heq⟩ := List.exists_cons_of_ne_nil hne
  exact ⟨ch, rest, heq, hdigits ch (by simp [heq])⟩

/-- The decimal text of a number parses back to it (R77, R81). -/
theorem parseDigits_decimal (n : Nat) : parseDigits (decimal n) = some n := by
  obtain ⟨ch, rest, heq, -⟩ := decimal_eq_cons n
  have hread : digitsFrom 0 (decimal n) = some n := (decimalFuel_spec n.lt_succ_self).2.2
  rw [heq] at hread ⊢
  exact hread

/-! ### Operand tokens (R77, R78, R81) -/

/-- A token that begins with a digit has no sign to strip. -/
theorem parseUnsigned_digit {ch : Char} (h : IsDigit ch) (rest : List Char) :
    parseUnsigned (ch :: rest) = unsignedOf (parseDigits (ch :: rest)) := by
  have hplus := h.ne_plus
  unfold parseUnsigned
  split
  · simp_all
  · rfl

theorem parseOffset_digit (c : Config) {ch : Char} (h : IsDigit ch) {rest : List Char} {n : Nat}
    (hread : parseDigits (ch :: rest) = some n) :
    parseOffset c (ch :: rest) = signedOf c (some (n : Int)) := by
  have hplus := h.ne_plus
  have hminus := h.ne_minus
  unfold parseOffset
  split
  · simp_all
  · simp_all
  · rw [hread]
    rfl

theorem parseOffset_minus (c : Config) {ds : List Char} {n : Nat} (hread : parseDigits ds = some n) :
    parseOffset c ('-' :: ds) = signedOf c (some (-(n : Int))) := by
  rw [parseOffset, hread]
  rfl

/-- The text of an immediate or a stack offset parses back to it. -/
theorem parseUnsigned_unsignedText (v : Word) : parseUnsigned (unsignedText v) = some v := by
  have hlt := v.isLt
  have hok : unsigned16Ok v.toNat = true := by
    simp only [unsigned16Ok, Bool.and_eq_true, decide_eq_true_eq]
    omega
  obtain ⟨ch, rest, heq, hdigit⟩ := decimal_eq_cons v.toNat
  have hread := parseDigits_decimal v.toNat
  rw [unsignedText, heq, parseUnsigned_digit hdigit, ← heq, hread, unsignedOf, if_pos hok,
    BitVec.ofNat_toNat, BitVec.setWidth_eq]

/-- The field of the signed number that a field stands for is the field (R64). -/
theorem offsetField_offsetValue (c : Config) (v : Word) : offsetField c (offsetValue c v) = v := by
  have hlt := v.isLt
  apply BitVec.eq_of_toNat_eq
  rw [offsetField, offsetValue, BitVec.toNat_ofInt, asSint16]
  cases c.offsetRepresentation
  dsimp only
  omega

/-- Reading the decimal text of an integer, sign and digits, gives that integer. -/
theorem parseOffset_decimalInt (c : Config) (n : Int) :
    parseOffset c (decimalInt n) = signedOf c (some n) := by
  have hread := parseDigits_decimal n.natAbs
  rcases lt_or_ge n 0 with hneg | hpos
  · rw [decimalInt, if_pos hneg, parseOffset_minus c hread, Int.ofNat_natAbs_of_nonpos hneg.le,
      neg_neg]
  · obtain ⟨ch, rest, heq, hdigit⟩ := decimal_eq_cons n.natAbs
    rw [decimalInt, if_neg (not_lt.2 hpos), heq, parseOffset_digit c hdigit (heq ▸ hread),
      Int.natAbs_of_nonneg hpos]

/-- The text of a jump offset parses back to its field. -/
theorem parseOffset_offsetText (c : Config) (v : Word) :
    parseOffset c (offsetText c v) = some v := by
  have hok : signed16Ok (offsetValue c v) = true := by
    obtain ⟨hlo, hhi⟩ := asSint16_range v
    rw [offsetValue, signed16Ok, decide_eq_true hlo, decide_eq_true hhi]
    rfl
  rw [offsetText, parseOffset_decimalInt, signedOf, if_pos hok, offsetField_offsetValue]

/-- The operand texts of an instruction parse back to it (R76, R81). -/
theorem parseOperands_operandTexts (c : Config) (i : Instr) :
    parseOperands c i.opcode (operandTexts c i) = .ok i := by
  cases i with
  | ret => rfl
  | jump | jumpIfTrue | jumpIfFalse =>
    simp [parseOperands, Instr.opcode, operandTexts, parseOne, parseOffset_offsetText]
  | print => simp [parseOperands, Instr.opcode, operandTexts, parseOne, parseReg_regText]
  | _ =>
    simp [parseOperands, Instr.opcode, operandTexts, parseTwo, parseReg_regText,
      parseUnsigned_unsignedText]

/-! ### Tokens of a line (R74, R76) -/

/-- A token of the canonical text: not empty, and without white space. -/
def IsWord (t : List Char) : Prop := t ≠ [] ∧ ∀ ch ∈ t, isSpace ch = false

theorem isWord_decimal (n : Nat) : IsWord (decimal n) :=
  ⟨(decimalFuel_spec n.lt_succ_self).2.1, fun _ h => (isDigit_of_mem_decimal h).isSpace_eq_false⟩

/-- A character other than white space in front of a word makes a word. -/
theorem IsWord.cons {t : List Char} (h : IsWord t) {ch : Char} (hch : isSpace ch = false) :
    IsWord (ch :: t) :=
  ⟨List.cons_ne_nil _ _, List.forall_mem_cons.2 ⟨hch, h.2⟩⟩

theorem isWord_decimalInt (n : Int) : IsWord (decimalInt n) := by
  rw [decimalInt]
  split
  · exact (isWord_decimal _).cons (by decide)
  · exact isWord_decimal _

theorem isWord_mnemonic (op : Opcode) : IsWord (mnemonic op) := by
  have hne : mnemonic op ≠ [] := by cases op <;> exact List.cons_ne_nil _ _
  have hall : (mnemonic op).all (fun ch => !isSpace ch) = true := by cases op <;> rfl
  exact ⟨hne, by simpa using hall⟩

theorem isWord_of_mem_operandTexts {c : Config} {i : Instr} {t : List Char}
    (h : t ∈ operandTexts c i) : IsWord t := by
  have hreg : ∀ r, IsWord (regText r) := fun r => (isWord_decimal r.val).cons (by decide)
  have hunsigned : ∀ v, IsWord (unsignedText v) := fun v => isWord_decimal v.toNat
  have hoffset : ∀ v, IsWord (offsetText c v) := fun v => isWord_decimalInt (offsetValue c v)
  cases i <;> simp only [operandTexts, List.mem_cons, List.not_mem_nil, or_false] at h
  case print => exact h ▸ hreg _
  case jump | jumpIfTrue | jumpIfFalse => exact h ▸ hoffset _
  all_goals
    rcases h with rfl | rfl <;> simp only [hreg, hunsigned]

theorem tokens_space {ch : Char} (h : isSpace ch = true) (cs : List Char) :
    tokens (ch :: cs) = tokens cs := by
  cases cs <;> simp [tokens, h]

theorem tokens_last {ch : Char} (h : isSpace ch = false) : tokens [ch] = [[ch]] := by
  simp [tokens, h]

/-- A character before white space ends its token. -/
theorem tokens_break {ch d : Char} (h : isSpace ch = false) (hd : isSpace d = true)
    (cs : List Char) : tokens (ch :: d :: cs) = [ch] :: tokens (d :: cs) := by
  rw [tokens.eq_def]
  simp [h, hd]

/-- A character before another character of a token belongs to that token. -/
theorem tokens_grow {ch d : Char} (h : isSpace ch = false) (hd : isSpace d = false)
    {cs t : List Char} {ts : List (List Char)} (hts : tokens (d :: cs) = t :: ts) :
    tokens (ch :: d :: cs) = (ch :: t) :: ts := by
  rw [tokens.eq_def]
  simp [h, hd, hts]

/-- A word at the end of a line is its last token. -/
theorem tokens_word {t : List Char} (h : IsWord t) : tokens t = [t] := by
  obtain ⟨hne, hspace⟩ := h
  induction t with
  | nil => exact absurd rfl hne
  | cons ch t ih =>
    obtain ⟨hch, ht⟩ := List.forall_mem_cons.1 hspace
    cases t with
    | nil => exact tokens_last hch
    | cons d t =>
      have hd : isSpace d = false := (List.forall_mem_cons.1 ht).1
      exact tokens_grow hch hd (ih (List.cons_ne_nil _ _) ht)

/-- A word before a space is the first token of a line. -/
theorem tokens_word_space {t : List Char} (h : IsWord t) (rest : List Char) :
    tokens (t ++ ' ' :: rest) = t :: tokens rest := by
  have hblank : isSpace ' ' = true := by decide
  obtain ⟨hne, hspace⟩ := h
  induction t with
  | nil => exact absurd rfl hne
  | cons ch t ih =>
    obtain ⟨hch, ht⟩ := List.forall_mem_cons.1 hspace
    cases t with
    | nil => rw [List.singleton_append, tokens_break hch hblank, tokens_space hblank]
    | cons d t =>
      have hd : isSpace d = false := (List.forall_mem_cons.1 ht).1
      exact tokens_grow hch hd (ih (List.cons_ne_nil _ _) ht)

/-- Words with one space before each but the first are the tokens of their line. -/
theorem tokens_words {t : List Char} {ts : List (List Char)} (h : IsWord t)
    (hs : ∀ u ∈ ts, IsWord u) : tokens (t ++ ts.flatMap (fun u => ' ' :: u)) = t :: ts := by
  induction ts generalizing t with
  | nil => simpa using tokens_word h
  | cons u us ih =>
    obtain ⟨hu, hus⟩ := List.forall_mem_cons.1 hs
    rw [List.flatMap_cons, List.cons_append, tokens_word_space h, ih hu hus]

/-! ### A canonical line (R81) -/

theorem tokens_formatInstr (c : Config) (i : Instr) :
    tokens (formatInstr c i) = mnemonic i.opcode :: operandTexts c i :=
  tokens_words (isWord_mnemonic _) fun _ h => isWord_of_mem_operandTexts h

/-- The canonical line of an instruction assembles to it (R81). -/
theorem parseLine_formatInstr (c : Config) (i : Instr) :
    parseLine c (formatInstr c i) = .ok (some i) := by
  simp [parseLine, tokens_formatInstr, isComment_mnemonic, opcodeOfMnemonic_mnemonic,
    parseOperands_operandTexts]

theorem newline_not_mem_of_isWord {t : List Char} (h : IsWord t) : '\n' ∉ t := fun hmem =>
  absurd (h.2 _ hmem) (by decide)

/-- A canonical line is one line (R81). -/
theorem newline_not_mem_formatInstr (c : Config) (i : Instr) : '\n' ∉ formatInstr c i := by
  intro h
  rcases List.mem_append.1 h with h | h
  · exact newline_not_mem_of_isWord (isWord_mnemonic _) h
  · obtain ⟨t, ht, hmem⟩ := List.mem_flatMap.1 h
    rcases List.mem_cons.1 hmem with heq | hmem
    · exact absurd heq (by decide)
    · exact newline_not_mem_of_isWord (isWord_of_mem_operandTexts ht) hmem

/-! ### Lines of a text (R74, R79) -/

/-- A line and its line feed before a text are its first line. -/
theorem splitLines_line {l : List Char} (h : '\n' ∉ l) (rest : List Char) :
    splitLines (l ++ '\n' :: rest) = l :: splitLines rest := by
  induction l with
  | nil => simp [splitLines]
  | cons ch l ih =>
    obtain ⟨hch, hl⟩ := not_or.1 (mt List.mem_cons.2 h)
    rw [List.cons_append, splitLines, if_neg (Ne.symm hch), ih hl]

theorem splitLines_joinLines_append {lines : List (List Char)} (h : ∀ l ∈ lines, '\n' ∉ l)
    (rest : List Char) : splitLines (joinLines lines ++ rest) = lines ++ splitLines rest := by
  induction lines with
  | nil => rfl
  | cons l ls ih =>
    obtain ⟨hl, hls⟩ := List.forall_mem_cons.1 h
    rw [show joinLines (l :: ls) ++ rest = l ++ '\n' :: (joinLines ls ++ rest) by simp [joinLines],
      splitLines_line hl, ih hls, List.cons_append]

/-- The lines of a disassembly followed by more text. -/
theorem splitLines_format_append (p : List Instr) (rest : List Char) :
    splitLines (joinLines (format p) ++ rest) = format p ++ splitLines rest :=
  splitLines_joinLines_append
    (List.forall_mem_map.2 fun i _ => newline_not_mem_formatInstr Config.spec i) rest

/-- After the canonical lines of a program the assembler goes on with the lines that follow. -/
theorem parseLines_format_append (p : List Instr) (n : Nat) (ls : List (List Char)) :
    parseLines Config.spec n (format p ++ ls) =
      (parseLines Config.spec (n + p.length) ls).map (p ++ ·) := by
  induction p generalizing n with
  | nil =>
    simp only [format, List.map_nil, List.nil_append, List.length_nil, Nat.add_zero]
    cases parseLines Config.spec n ls <;> rfl
  | cons i p ih =>
    rw [show format (i :: p) ++ ls = formatInstr Config.spec i :: (format p ++ ls) from rfl,
      parseLines, parseLine_formatInstr, List.length_cons, Nat.add_comm p.length 1, ← Nat.add_assoc]
    dsimp only
    rw [ih]
    cases parseLines Config.spec (n + 1 + p.length) ls <;> rfl

/-- Settles O12: the disassembly's lines are read one by one, and the empty line after the last line
feed makes no instruction. -/
theorem parseInvertsFormat : Obligations.ParseInvertsFormat := by
  intro p
  have hlast : parseLines Config.spec (1 + p.length) (splitLines []) = .ok [] := rfl
  have hlines := splitLines_format_append p []
  rw [List.append_nil] at hlines
  rw [parse, hlines, parseLines_format_append, hlast]
  simp [Except.map]

/-- Settles O13: the lines before the bad one are read, and what follows it is never looked at. -/
theorem parseFailsAtTheFirstBadLine : Obligations.ParseFailsAtTheFirstBadLine := by
  intro p bad rest k hbad herr
  have hfail : ∀ n, parseLines Config.spec n (bad :: splitLines rest) = .error ⟨k, n⟩ := fun n => by
    rw [parseLines, herr]
  rw [parse, List.append_assoc, splitLines_format_append, splitLines_line hbad,
    parseLines_format_append, hfail, Nat.add_comm]
  rfl

end Sys2Proof.Machine
end

section
/-! SUPPORT. Arithmetic and Print (`42_arithmetic.md` R120 to R125, `43_print.md` R130): each
instruction's next state as one state update with the operation of the word type, and the default
advance. -/

namespace Sys2Proof.Machine

/-! ### The four operations over words (R121 to R124)

Wrapping an exact result modulo 65536 is what the word type's own operation does (D4), and the floor
of a quotient is the word type's unsigned division (D5). -/

theorem exec_add (a b : Reg) (s : State) :
    exec (.add a b) s = .next (s.writeReg b (s.readReg b + s.readReg a)).advance := by
  rw [exec, execAdd, accumulate_eq, complete, BitVec.ofInt_add]
  simp

theorem exec_sub (a b : Reg) (s : State) :
    exec (.sub a b) s = .next (s.writeReg b (s.readReg b - s.readReg a)).advance := by
  rw [exec, execSub, accumulate_eq, complete]
  congr
  apply BitVec.eq_of_toNat_eq
  rw [BitVec.toNat_ofInt, BitVec.toNat_sub]
  omega

theorem exec_mul (a b : Reg) (s : State) :
    exec (.mul a b) s = .next (s.writeReg b (s.readReg b * s.readReg a)).advance := by
  rw [exec, execMul, accumulate_eq, complete, BitVec.ofInt_mul]
  simp

theorem exec_div_of_ne_zero {a : Reg} {s : State} (h : s.readReg a ≠ 0) (b : Reg) :
    exec (.div a b) s = .next (s.writeReg b (s.readReg b / s.readReg a)).advance := by
  have hpos : (s.readReg a).toNat ≠ 0 := fun hz => h (BitVec.eq_of_toNat_eq hz)
  rcases divideInto_cases (a := a) (b := b) (s := s) rfl with ⟨hz, -⟩ | ⟨-, hr⟩
  · exact absurd hz hpos
  · rw [exec, execDiv, hr, ← BitVec.udiv_def, complete]

/-- Settles O32: the word type's sum is the sum modulo 65536. -/
theorem addWritesTheSum : Obligations.AddWritesTheSum := fun a b s =>
  ⟨_, _, exec_add a b s, BitVec.toNat_add _ _, writesRegister_advance ..⟩

/-- Settles O33: the word type's difference is the difference modulo 65536, borrow included. -/
theorem subWritesTheDifference : Obligations.SubWritesTheDifference := by
  intro a b s
  refine ⟨_, _, exec_sub a b s, ?_, writesRegister_advance ..⟩
  rw [BitVec.toNat_sub]
  omega

/-- Settles O34: the word type's product is the product modulo 65536. -/
theorem mulWritesTheProduct : Obligations.MulWritesTheProduct := fun a b s =>
  ⟨_, _, exec_mul a b s, BitVec.toNat_mul _ _, writesRegister_advance ..⟩

/-- Settles O35: the word type's quotient is the floor, which always fits. -/
theorem divWritesTheQuotient : Obligations.DivWritesTheQuotient := fun _ b _ h =>
  ⟨_, _, exec_div_of_ne_zero h b, BitVec.toNat_udiv, writesRegister_advance ..⟩

/-- Settles O36: a zero divisor raises before any write, whatever the dividend. -/
theorem divByZeroFaults : Obligations.DivByZeroFaults := fun _ b _ h =>
  ⟨_, (exec_div_of_zero h b).trans (raise_eq_next.2 rfl), rfl, rfl, rfl⟩

/-! ### Sequences (R125) -/

/-- Settles O38: the register that was subtracted still holds its value, so adding it undoes the
subtraction in the word type. -/
theorem addUndoesSub : Obligations.AddUndoesSub := by
  intro a b s t u hab hsub hadd r
  obtain rfl := Host.Outcome.next.inj ((exec_sub a b s).symm.trans hsub)
  obtain rfl := Host.Outcome.next.inj ((exec_add a b _).symm.trans hadd)
  rcases eq_or_ne r b with rfl | hr
  · simp [hab]
  · simp [hr]

/-- The remainder is what the floor quotient's multiple leaves, in the word type (R125). -/
theorem toNat_sub_mul_udiv (p q : Word) : (p - p / q * q).toNat = p.toNat % q.toNat := by
  have hp := p.isLt
  have hle : p.toNat / q.toNat * q.toNat ≤ p.toNat := Nat.div_mul_le_self _ _
  have hmul : (p / q * q).toNat = p.toNat / q.toNat * q.toNat := by
    rw [BitVec.toNat_mul, BitVec.toNat_udiv, Nat.mod_eq_of_lt (hle.trans_lt hp)]
  have hsub : p / q * q ≤ p := by rwa [BitVec.le_def, hmul]
  have hmod : p.toNat - p.toNat / q.toNat * q.toNat = p.toNat % q.toNat := by
    rw [Nat.mod_def, Nat.mul_comm]
  rw [BitVec.toNat_sub_of_le hsub, hmul, hmod]

/-- Settles O39: the copy is divided, multiplied back, and taken from what was copied. -/
theorem copyDivMulSubGiveTheRemainder : Obligations.CopyDivMulSubGiveTheRemainder := by
  intro a b c s hab hac hbc hz
  have hdiv : (s.writeReg c (s.readReg b)).advance.readReg a ≠ 0 := by simpa [hac] using hz
  refine ⟨_, _, _, _, exec_copyRegToReg b c s, exec_div_of_ne_zero hdiv c, exec_mul a c _,
    exec_sub c b _, ?_⟩
  rw [← toNat_sub_mul_udiv]
  congr 1
  simp [hac, hbc]

/-- Settles O40: a result in 0..65535 passes the check of the policy that fails explicitly, and then
both policies keep its 16 bits. -/
theorem overflowPoliciesAgreeWhereTheResultFits :
    Obligations.OverflowPoliciesAgreeWhereTheResultFits := by
  intro c op a b s hlo hhi
  have hfits : unsigned16Ok (op (s.readReg b).toNat (s.readReg a).toNat) = true := by
    rw [unsigned16Ok, decide_eq_true hlo, decide_eq_true hhi]
    rfl
  simp only [accumulate, narrow, hfits, if_true]

/-! ### Print (R130) -/

theorem exec_print (reg : Reg) (s : State) :
    exec (.print reg) s = .next (s.emit (s.readReg reg)).advance := rfl

/-- Settles O41: the next state is one output and the default advance. -/
theorem printAppendsTheRegister : Obligations.PrintAppendsTheRegister := fun reg s =>
  ⟨_, exec_print reg s, rfl, rfl, rfl, rfl, fun _ => rfl, fun _ => rfl, rfl⟩

end Sys2Proof.Machine
end

section
/-! SUPPORT. The ordered compares (`45_compare.md` R153 to R156), each the compare of its unsigned
relation. -/

namespace Sys2Proof.Machine

theorem exec_compareLess (a b : Reg) (s : State) :
    exec (.compareLess a b) s = compareBy flagLess a b s := rfl

theorem exec_compareLessOrEqual (a b : Reg) (s : State) :
    exec (.compareLessOrEqual a b) s = compareBy flagLessOrEqual a b s := rfl

theorem exec_compareGreater (a b : Reg) (s : State) :
    exec (.compareGreater a b) s = compareBy flagGreater a b s := rfl

theorem exec_compareGreaterOrEqual (a b : Reg) (s : State) :
    exec (.compareGreaterOrEqual a b) s = compareBy flagGreaterOrEqual a b s := rfl

/-- Settles O51: CompareLess is the compare of the relation `p < q` (R153). -/
theorem compareLessSetsTheFlag : Obligations.CompareLessSetsTheFlag := by
  intro a b s
  rw [exec_compareLess]
  exact compareBy_writesFlag flagLess a b s

/-- Settles O52: CompareLessOrEqual is the compare of the relation `p <= q` (R154). -/
theorem compareLessOrEqualSetsTheFlag : Obligations.CompareLessOrEqualSetsTheFlag := by
  intro a b s
  rw [exec_compareLessOrEqual]
  exact compareBy_writesFlag flagLessOrEqual a b s

/-- Settles O53: CompareGreater is the compare of the relation `p > q` (R155). -/
theorem compareGreaterSetsTheFlag : Obligations.CompareGreaterSetsTheFlag := by
  intro a b s
  rw [exec_compareGreater]
  exact compareBy_writesFlag flagGreater a b s

/-- Settles O54: CompareGreaterOrEqual is the compare of the relation `p >= q` (R156). -/
theorem compareGreaterOrEqualSetsTheFlag : Obligations.CompareGreaterOrEqualSetsTheFlag := by
  intro a b s
  rw [exec_compareGreaterOrEqual]
  exact compareBy_writesFlag flagGreaterOrEqual a b s

end Sys2Proof.Machine
end

section
/-! SUPPORT. Jumps (`44_jumps.md` R140 to R144): where a taken jump goes, what an untaken one does,
and the fault of a target outside the program. -/

namespace Sys2Proof.Machine

/-! ### The whole effect of setting the instruction pointer -/

theorem movesTo_setPc (s : State) (target : Nat) : MovesTo s (s.setPc target) target :=
  ⟨rfl, rfl, fun _ => rfl, rfl, fun _ => rfl, rfl, rfl⟩

theorem movesTo_advance (s : State) : MovesTo s s.advance (s.pc + 1) :=
  ⟨rfl, rfl, fun _ => rfl, rfl, fun _ => rfl, rfl, rfl⟩

/-! ### A taken jump -/

/-- A jump that is taken to a target in 0..LEN goes there and does nothing else (R140). -/
theorem exec_jumpTaken_inside {i : Instr} {s : State} {offset : Word} {target : Nat}
    (hi : jumpTaken i s = some offset) (ht : (target : Int) = (s.pc : Int) + 1 + asSint16 offset)
    (hle : target ≤ s.prog.length) : ∃ t, exec i s = .next t ∧ MovesTo s t target := by
  rw [← jumpTarget_eq] at ht
  rcases takeJump_cases (exec_of_jumpTaken hi).symm with ⟨n, hn, -, h⟩ | ⟨hout, -⟩
  · obtain rfl : n = target := by omega
    exact ⟨_, h, movesTo_setPc s n⟩
  · omega

/-- A jump that is taken to a target outside 0..LEN faults at its own index (R144, R164). -/
theorem exec_jumpTaken_outside {i : Instr} {s : State} {offset : Word}
    (hi : jumpTaken i s = some offset) (hout : TargetOutside s offset) :
    exec i s = raise .outOfBounds s := by
  rcases takeJump_cases (exec_of_jumpTaken hi).symm with ⟨n, hn, hle, -⟩ | ⟨-, h⟩
  · rcases hout with hlt | hlt <;> omega
  · exact h

/-! ### An untaken conditional jump -/

theorem exec_jumpIfTrue_untaken {s : State} (h : s.flag = false) (offset : Word) :
    exec (.jumpIfTrue offset) s = .next s.advance := by
  simp [exec, execJumpIfTrue, h, complete]

theorem exec_jumpIfFalse_untaken {s : State} (h : s.flag = true) (offset : Word) :
    exec (.jumpIfFalse offset) s = .next s.advance := by
  simp [exec, execJumpIfFalse, h, complete]

/-! ### The obligations -/

/-- Settles O43: Jump is always taken. -/
theorem jumpGoesToItsTarget : Obligations.JumpGoesToItsTarget := fun _ _ _ ht hle =>
  exec_jumpTaken_inside rfl ht hle

/-- Settles O44: with the flag true the jump is taken, with the flag false it is not. -/
theorem jumpIfTrueFollowsTheFlag : Obligations.JumpIfTrueFollowsTheFlag := fun offset s =>
  ⟨fun _ hflag ht hle => exec_jumpTaken_inside (if_pos hflag) ht hle,
    fun hflag => ⟨_, exec_jumpIfTrue_untaken hflag offset, movesTo_advance s⟩⟩

/-- Settles O45: with the flag false the jump is taken, with the flag true it is not. -/
theorem jumpIfFalseFollowsTheFlag : Obligations.JumpIfFalseFollowsTheFlag := fun offset s =>
  ⟨fun _ hflag ht hle => exec_jumpTaken_inside (if_pos hflag) ht hle,
    fun hflag => ⟨_, exec_jumpIfFalse_untaken hflag offset, movesTo_advance s⟩⟩

/-- Settles O46: whichever of the three jumps it is, a taken jump is the same operation. -/
theorem takenJumpOutsideTheProgramFaults : Obligations.TakenJumpOutsideTheProgramFaults :=
  fun _ _ _ hi hout =>
    ⟨_, (exec_jumpTaken_outside hi hout).trans (raise_eq_next.2 rfl), rfl, rfl, rfl⟩

/-- Settles O47: forwards by the two ways into Faulted, of which only the jump is of this kind;
backwards by running that jump. -/
theorem outOfBoundsIsRaisedByTakenJumpsAlone : Obligations.OutOfBoundsIsRaisedByTakenJumpsAlone := by
  intro i s t hsafe h
  constructor
  · rintro ⟨n, hf⟩
    rcases exec_faulted_cases hsafe h hf with ⟨-, ⟨-, hjump⟩ | ⟨hk, -⟩⟩
    · exact hjump
    · cases hk
  · rintro ⟨offset, hi, hout⟩
    rw [exec_jumpTaken_outside hi hout, raise_eq_next] at h
    exact ⟨s.pc, by rw [← h]⟩

end Sys2Proof.Machine
end
section
/-! SUPPORT. Instructions and steps (`10_state.md` R14 to R25, `20_memory.md` R42 to R46): what an
instruction can do to each piece of state, every instruction answers, and a step can do no more than
an instruction can. -/

namespace Sys2Proof.Machine

/-! ### One instruction, piece by piece -/

/-- The stack memory changes by the store that the instruction is, or not at all (R46). -/
theorem exec_stack_cases {i : Instr} {s t : State} (h : exec i s = .next t) :
    t.stack = s.stack ∨ ∃ src offset, i = .storeToStack src offset ∧
      t.stack = s.stack.write (effectiveAddress offset) (s.readReg src) := by
  rcases exec_cases h with ⟨-, rfl⟩ | ⟨d, v, -, -, -, -, -, -, -, rfl⟩ | ⟨src, offset, rfl, rfl⟩ |
    ⟨r, -, rfl⟩ | ⟨offset, -, n, -, -, rfl⟩ | ⟨offset, -, -, rfl⟩ | ⟨a, b, -, -, rfl⟩ |
    ⟨-, -, rfl⟩ | ⟨-, -, b, rfl⟩
  case inr.inr.inl => exact .inr ⟨src, offset, rfl, rfl⟩
  all_goals exact .inl rfl

/-- The output changes by the value of the print that the instruction is, or not at all (R21). -/
theorem exec_out_cases {i : Instr} {s t : State} (h : exec i s = .next t) :
    t.out = s.out ∨ ∃ r, i = .print r ∧ t.out = s.out ++ [s.readReg r] := by
  rcases exec_cases h with ⟨-, rfl⟩ | ⟨d, v, -, -, -, -, -, -, -, rfl⟩ | ⟨src, offset, -, rfl⟩ |
    ⟨r, rfl, rfl⟩ | ⟨offset, -, n, -, -, rfl⟩ | ⟨offset, -, -, rfl⟩ | ⟨a, b, -, -, rfl⟩ |
    ⟨-, -, rfl⟩ | ⟨-, -, b, rfl⟩
  case inr.inr.inr.inl => exact .inr ⟨r, rfl, rfl⟩
  all_goals exact .inl rfl

/-- No instruction writes the program store (R20, R52). -/
theorem exec_prog {i : Instr} {s t : State} (h : exec i s = .next t) : t.prog = s.prog := by
  rcases exec_cases h with ⟨-, rfl⟩ | ⟨d, v, -, -, -, -, -, -, -, rfl⟩ | ⟨src, offset, -, rfl⟩ |
    ⟨r, -, rfl⟩ | ⟨offset, -, n, -, -, rfl⟩ | ⟨offset, -, -, rfl⟩ | ⟨a, b, -, -, rfl⟩ |
    ⟨-, -, rfl⟩ | ⟨-, -, b, rfl⟩
  all_goals rfl

/-- The run state stays as it is, or the instruction is a Return, a taken jump outside the program,
or a division by zero (R18, R164). -/
theorem exec_run_cases {i : Instr} {s t : State} (h : exec i s = .next t) :
    t.run = s.run ∨
    (i = .ret ∧ t.run = .halted (s.readReg 0)) ∨
    (∃ offset, jumpTaken i s = some offset ∧ TargetOutside s offset ∧
      t.run = .faulted .outOfBounds s.pc) ∨
    (∃ a b, i = .div a b ∧ s.readReg a = 0 ∧ t.run = .faulted .divisionByZero s.pc) := by
  rcases exec_cases h with ⟨hi, rfl⟩ | ⟨d, v, -, -, -, -, -, -, -, rfl⟩ | ⟨src, offset, -, rfl⟩ |
    ⟨r, -, rfl⟩ | ⟨offset, -, n, -, -, rfl⟩ | ⟨offset, hi, hout, rfl⟩ | ⟨a, b, hi, hz, rfl⟩ |
    ⟨-, -, rfl⟩ | ⟨-, -, b, rfl⟩
  case inl => exact .inr (.inl ⟨hi, rfl⟩)
  case inr.inr.inr.inr.inr.inl => exact .inr (.inr (.inl ⟨offset, hi, hout, rfl⟩))
  case inr.inr.inr.inr.inr.inr.inl => exact .inr (.inr (.inr ⟨a, b, hi, hz, rfl⟩))
  all_goals exact .inl rfl

/-- The instruction pointer stays, where the instruction is a Return or faults; goes to a taken
jump's target in 0..LEN; or advances by one (R15). -/
theorem exec_pc_cases {i : Instr} {s t : State} (h : exec i s = .next t) :
    (t.pc = s.pc ∧ (i = .ret ∨ t.safe = false)) ∨
    (∃ offset, jumpTaken i s = some offset ∧ (t.pc : Int) = jumpTarget Config.spec s.pc offset ∧
      t.pc ≤ s.prog.length) ∨
    (i ≠ .ret ∧ jumpTaken i s = none ∧ t.pc = s.pc + 1) := by
  rcases exec_cases h with ⟨hi, rfl⟩ | ⟨d, v, -, hj, -, -, -, -, hi, rfl⟩ |
    ⟨src, offset, rfl, rfl⟩ | ⟨r, rfl, rfl⟩ | ⟨offset, hj, n, hn, hle, rfl⟩ |
    ⟨offset, -, -, rfl⟩ | ⟨a, b, -, -, rfl⟩ | ⟨hc, hj, rfl⟩ | ⟨hc, hj, b, rfl⟩
  · exact .inl ⟨rfl, .inl hi⟩
  · exact .inr (.inr ⟨hi, hj, rfl⟩)
  · exact .inr (.inr ⟨Instr.noConfusion, rfl, rfl⟩)
  · exact .inr (.inr ⟨Instr.noConfusion, rfl, rfl⟩)
  · exact .inr (.inl ⟨offset, hj, hn, hle⟩)
  · exact .inl ⟨rfl, .inr rfl⟩
  · exact .inl ⟨rfl, .inr rfl⟩
  · exact .inr (.inr ⟨fun hi => by simp [hi, Instr.isConditionalJump] at hc, hj, rfl⟩)
  · exact .inr (.inr ⟨fun hi => by simp [hi, Instr.isCompare] at hc, hj, rfl⟩)

/-- A register that the table does not list as written keeps its value (R12). -/
theorem exec_readReg {i : Instr} {s t : State} {r : Reg} (h : exec i s = .next t)
    (hr : i.writes ≠ some r) : t.readReg r = s.readReg r := by
  rcases exec_cases h with ⟨-, rfl⟩ | ⟨d, v, hd, -, -, -, -, -, -, rfl⟩ | ⟨src, offset, -, rfl⟩ |
    ⟨q, -, rfl⟩ | ⟨offset, -, n, -, -, rfl⟩ | ⟨offset, -, -, rfl⟩ | ⟨a, b, -, -, rfl⟩ |
    ⟨-, -, rfl⟩ | ⟨-, -, b, rfl⟩
  case inr.inl =>
    have hne : r ≠ d := fun e => hr (e ▸ hd)
    simp [hne]
  all_goals rfl

/-- Every instruction keeps the canonical form of the stack memory (R19). -/
theorem exec_keeps_wf {i : Instr} {s t : State} (h : exec i s = .next t)
    (hwf : s.stack.wf = true) : t.stack.wf = true := by
  rcases exec_stack_cases h with hs | ⟨src, offset, -, hs⟩
  · rwa [hs]
  · rw [hs]
    exact Memory.wf_write hwf (effectiveAddress_lt offset) _

/-- Settles O18: the model's own stops are behind the overflow policy and the fetch; a taken jump and
a division answer on either branch. -/
theorem everyInstructionAnswersANextState : Obligations.EveryInstructionAnswersANextState := by
  intro i s
  cases i with
  | loadFromStack offset dest => exact ⟨_, exec_loadFromStack offset dest s⟩
  | storeToStack src offset => exact ⟨_, exec_storeToStack src offset s⟩
  | div a b =>
    rcases eq_or_ne (s.readReg a) 0 with hz | hz
    · exact ⟨_, exec_div_of_zero hz b⟩
    · exact ⟨_, exec_div_of_ne_zero hz b⟩
  | jump offset =>
    rcases takeJump_cases (exec_of_jumpTaken (i := .jump offset) (s := s) rfl).symm with
      ⟨n, -, -, hr⟩ | ⟨-, hr⟩ <;> exact ⟨_, hr⟩
  | jumpIfTrue offset =>
    cases hf : s.flag with
    | false => exact ⟨_, exec_jumpIfTrue_untaken hf offset⟩
    | true =>
      rcases takeJump_cases (exec_of_jumpTaken (i := .jumpIfTrue offset) (if_pos hf)).symm with
        ⟨n, -, -, hr⟩ | ⟨-, hr⟩ <;> exact ⟨_, hr⟩
  | jumpIfFalse offset =>
    cases hf : s.flag with
    | true => exact ⟨_, exec_jumpIfFalse_untaken hf offset⟩
    | false =>
      rcases takeJump_cases (exec_of_jumpTaken (i := .jumpIfFalse offset) (if_pos hf)).symm with
        ⟨n, -, -, hr⟩ | ⟨-, hr⟩ <;> exact ⟨_, hr⟩
  | _ => exact ⟨_, rfl⟩

/-- Settles O48: of the three ways to move the instruction pointer, each clause of the table excludes
the others. -/
theorem instructionPointerMovesAsTheTableSays :
    Obligations.InstructionPointerMovesAsTheTableSays := by
  intro i s t h hsafe
  rcases exec_pc_cases h with ⟨hpc, rfl | hfault⟩ | ⟨offset, hj, hpc, -⟩ | ⟨hi, hj, hpc⟩
  · exact ⟨fun _ => hpc, fun _ hj => (nomatch hj), fun hi => absurd rfl hi⟩
  · simp [hsafe] at hfault
  · refine ⟨fun hi => ?_, fun offset' hj' => ?_, fun _ hnone => ?_⟩
    · simp [hi, jumpTaken] at hj
    · obtain rfl := Option.some.inj (hj.symm.trans hj')
      exact hpc
    · simp [hj] at hnone
  · exact ⟨fun he => absurd he hi, fun _ hsome => by simp [hj] at hsome, fun _ _ => hpc⟩

/-! ### One step -/

/-- What a step answers with a next state: the terminal state itself, an instruction's next state
with the instruction pointer inside the program, or the halt at its end (R18, R24, R25). -/
theorem step_next_cases {s t : State} (h : step s = .next t) :
    (s.terminal = true ∧ t = s) ∨
    (s.run = .running ∧ ∃ i, s.prog[s.pc]? = some i ∧ s.pc < s.prog.length ∧ exec i s = .next t) ∨
    (s.run = .running ∧ s.pc = s.prog.length ∧ t = { s with run := .halted 0 }) := by
  rcases step_cases s with ⟨hs, he⟩ | ⟨hs, i, hi, hlt, he⟩ | ⟨hs, hpc, he⟩ | ⟨-, -, he⟩ <;>
    rw [he] at h
  · exact .inl ⟨hs, (Host.Outcome.next.inj h).symm⟩
  · exact .inr (.inl ⟨hs, i, hi, hlt, h⟩)
  · exact .inr (.inr ⟨hs, hpc, (Host.Outcome.next.inj h).symm⟩)
  · cases h

/-- A relation between a state and its next state that holds of a state and itself, of an instruction
of the program, and of the halt at its end holds of every step. -/
theorem step_relation {P : State → State → Prop} {s t : State} (h : step s = .next t)
    (stay : P s s) (instr : ∀ i, i ∈ s.prog → exec i s = .next t → P s t)
    (ended : P s { s with run := .halted 0 }) : P s t := by
  rcases step_next_cases h with ⟨-, rfl⟩ | ⟨-, i, hi, -, he⟩ | ⟨-, -, rfl⟩
  · exact stay
  · exact instr i (List.mem_of_getElem? hi) he
  · exact ended

theorem step_prog {s t : State} (h : step s = .next t) : t.prog = s.prog :=
  step_relation (P := fun s t => t.prog = s.prog) h rfl (fun _ _ => exec_prog) rfl

theorem step_keeps_wf {s t : State} (h : step s = .next t) (hwf : s.stack.wf = true) :
    t.stack.wf = true :=
  step_relation (P := fun _ t => t.stack.wf = true) h hwf (fun _ _ he => exec_keeps_wf he hwf) hwf

/-- From `s` to `t` at most `k` values are appended to the output, and nothing else becomes of it
(R21). -/
def OutGrowsBy (k : Nat) (s t : State) : Prop :=
  ∃ new : List Word, t.out = s.out ++ new ∧ new.length ≤ k

theorem OutGrowsBy.of_eq {k : Nat} {s t : State} (h : t.out = s.out) : OutGrowsBy k s t :=
  ⟨[], by rw [h, List.append_nil], Nat.zero_le k⟩

theorem OutGrowsBy.trans {j k : Nat} {s t u : State} (h : OutGrowsBy j s t)
    (h' : OutGrowsBy k t u) : OutGrowsBy (j + k) s u := by
  obtain ⟨first, ht, hfirst⟩ := h
  obtain ⟨later, hu, hlater⟩ := h'
  refine ⟨first ++ later, by rw [hu, ht, List.append_assoc], ?_⟩
  rw [List.length_append]
  omega

/-- A step appends at most one value to the output (R21). -/
theorem step_outGrowsBy {s t : State} (h : step s = .next t) : OutGrowsBy 1 s t := by
  refine step_relation (P := OutGrowsBy 1) h (.of_eq rfl) (fun i _ he => ?_) (.of_eq rfl)
  rcases exec_out_cases he with ho | ⟨r, -, ho⟩
  · exact .of_eq ho
  · exact ⟨_, ho, Nat.le_refl 1⟩

/-- The word that a stack offset addresses reads in `t` as it does in `s`. -/
def SameWord (offset : Word) (s t : State) : Prop :=
  t.stack.read (effectiveAddress offset) = s.stack.read (effectiveAddress offset)

/-- A step of a program without a store to a word leaves that word as it is (R42). -/
theorem step_sameWord {s t : State} {offset : Word} (h : step s = .next t)
    (hwf : s.stack.wf = true) (hprog : ∀ src, Instr.storeToStack src offset ∉ s.prog) :
    SameWord offset s t := by
  refine step_relation (P := SameWord offset) h rfl (fun i hmem he => ?_) rfl
  rcases exec_stack_cases he with hs | ⟨src, other, rfl, hs⟩
  · rw [SameWord, hs]
  · have hne : effectiveAddress offset ≠ effectiveAddress other := fun e =>
      hprog src (BitVec.eq_of_toNat_eq e ▸ hmem)
    rw [SameWord, hs, Memory.read_write hwf, if_neg hne]

/-! ### The invariant (R14, R19, R164) -/

theorem State.inv_iff {s : State} : s.inv = true ↔ s.stack.wf = true ∧ s.pcLegal = true := by
  rw [State.inv, Bool.and_eq_true]

/-- In a run state other than Faulted the instruction pointer is legal when it is in 0..LEN. -/
theorem State.pcLegal_of_safe {s : State} (h : s.safe = true) :
    s.pcLegal = true ↔ s.pc ≤ s.prog.length := by
  unfold State.safe at h
  unfold State.pcLegal
  split
  · next hr => simp [hr] at h
  · exact decide_eq_true_iff

/-- A recorded fault index is legal when it is an instruction's. -/
theorem State.pcLegal_of_faulted {s : State} {k : FaultKind} {n : Nat}
    (h : s.run = .faulted k n) : s.pcLegal = true ↔ n < s.prog.length := by
  simp [State.pcLegal, h]

/-- An instruction inside the program leaves the instruction pointer, or the recorded index, legal. -/
theorem exec_pcLegal {i : Instr} {s t : State} (hrun : s.run = .running)
    (hlt : s.pc < s.prog.length) (h : exec i s = .next t) : t.pcLegal = true := by
  have hprog := exec_prog h
  have hstart : s.safe = true := by simp [State.safe, hrun]
  cases hsafe : t.safe with
  | true =>
    rw [State.pcLegal_of_safe hsafe, hprog]
    rcases exec_pc_cases h with ⟨hpc, -⟩ | ⟨offset, -, -, hle⟩ | ⟨-, -, hpc⟩ <;> omega
  | false =>
    rcases hr : t.run with _ | w | ⟨k, n⟩
    · simp [State.safe, hr] at hsafe
    · simp [State.safe, hr] at hsafe
    · obtain ⟨rfl, -⟩ := exec_faulted_cases hstart h hr
      rw [State.pcLegal_of_faulted hr, hprog]
      exact hlt

/-- Settles O16: the stack memory by the rule of a write, the instruction pointer by where each way
of moving it ends. -/
theorem stepKeepsTheInvariant : Obligations.StepKeepsTheInvariant := by
  intro s t hinv h
  obtain ⟨hwf, hpc⟩ := State.inv_iff.1 hinv
  refine State.inv_iff.2 ⟨step_keeps_wf h hwf, ?_⟩
  rcases step_next_cases h with ⟨-, rfl⟩ | ⟨hrun, i, -, hlt, he⟩ | ⟨-, hend, rfl⟩
  · exact hpc
  · exact exec_pcLegal hrun hlt he
  · exact (State.pcLegal_of_safe rfl).2 hend.le

/-- From a state of the invariant a step answers: the one stop of the model is above LEN (log 28). -/
theorem step_answers {s : State} (hinv : s.inv = true) : ∃ t, step s = .next t := by
  obtain ⟨-, hpc⟩ := State.inv_iff.1 hinv
  rcases step_cases s with ⟨-, he⟩ | ⟨-, i, -, -, he⟩ | ⟨-, -, he⟩ | ⟨hrun, hgt, -⟩
  · exact ⟨_, he⟩
  · obtain ⟨t, ht⟩ := everyInstructionAnswersANextState i s
    exact ⟨t, he.trans ht⟩
  · exact ⟨_, he⟩
  · have hsafe : s.safe = true := by simp [State.safe, hrun]
    exact absurd ((State.pcLegal_of_safe hsafe).1 hpc) (not_le.2 hgt)

theorem runFor_succ_of_step {s t : State} (h : step s = .next t) (k : Nat) :
    runFor (k + 1) s = runFor k t := by
  rw [runFor_succ, h]

/-- Settles O17: by induction on the number of steps, each of which answers and keeps the invariant. -/
theorem runsFromLegalStatesNeverStop : Obligations.RunsFromLegalStatesNeverStop := by
  intro s k hinv
  induction k generalizing s with
  | zero => exact ⟨s, rfl, hinv⟩
  | succ k ih =>
    obtain ⟨u, hu⟩ := step_answers hinv
    rw [runFor_succ_of_step hu]
    exact ih u (stepKeepsTheInvariant s u hinv hu)

/-- Settles O15: every reset state has an empty stack memory and the instruction pointer 0. -/
theorem resetMeetsTheInvariant : Obligations.ResetMeetsTheInvariant := by
  have hreset : ∀ p, ({ State.reset with prog := p } : State).inv = true := fun p =>
    State.inv_iff.2 ⟨Memory.wf_reset, (State.pcLegal_of_safe rfl).2 (Nat.zero_le _)⟩
  refine ⟨hreset [], fun s => hreset s.prog, fun n p s h => ?_⟩
  obtain ⟨-, rfl⟩ := boot_cases h
  exact hreset p

/-! ### Ends of a run (R18, R25, R100, R193) -/

/-- Settles O19: a Return is a halt and nothing else. -/
theorem returnHaltsWithRegisterZero : Obligations.ReturnHaltsWithRegisterZero := fun _ =>
  ⟨_, rfl, rfl, rfl, rfl, rfl, fun _ => rfl, fun _ => rfl, rfl, rfl⟩

/-- Settles O20: at LEN the fetch finds the end, and the halt there changes nothing else. -/
theorem runningOffTheEndHalts : Obligations.RunningOffTheEndHalts := by
  intro s hrun hpc
  rcases step_cases s with ⟨hterm, -⟩ | ⟨-, i, -, hlt, -⟩ | ⟨-, -, he⟩ | ⟨-, hgt, -⟩
  · simp [State.terminal, hrun] at hterm
  · omega
  · exact ⟨_, he, rfl, rfl, rfl, fun _ => rfl, fun _ => rfl, rfl, rfl⟩
  · omega

/-- Settles O21: of the four things a step can do, only the stop has `pc` above LEN. -/
theorem instructionPointerAboveTheProgramStops :
    Obligations.InstructionPointerAboveTheProgramStops := by
  intro s hrun hpc
  rcases step_cases s with ⟨hterm, -⟩ | ⟨-, i, -, hlt, -⟩ | ⟨-, hend, -⟩ | ⟨-, -, he⟩
  · simp [State.terminal, hrun] at hterm
  · omega
  · omega
  · exact he

theorem step_of_terminal {s : State} (h : s.terminal = true) : step s = .next s := by
  rcases step_cases s with ⟨-, he⟩ | ⟨hrun, -⟩ | ⟨hrun, -⟩ | ⟨hrun, -⟩
  case inl => exact he
  all_goals simp [State.terminal, hrun] at h

/-- Settles O22: by induction on the number of steps. -/
theorem terminalStatesAreFinal : Obligations.TerminalStatesAreFinal := by
  intro s k hterm
  induction k with
  | zero => rfl
  | succ k ih => rw [runFor_succ_of_step (step_of_terminal hterm), ih]

/-- Settles O23: the step is an instruction's or the halt at the end; an instruction changes the run
state in three ways. -/
theorem runEndsOnlyByReturnEndOrFault : Obligations.RunEndsOnlyByReturnEndOrFault := by
  intro s t hrun h
  rcases step_next_cases h with ⟨-, rfl⟩ | ⟨-, i, hi, -, he⟩ | ⟨-, hend, rfl⟩
  · exact .inl hrun
  · rcases exec_run_cases he with hr | ⟨rfl, hr⟩ | ⟨offset, hj, hout, hr⟩ | ⟨a, b, rfl, hz, hr⟩
    · exact .inl (hr.trans hrun)
    · exact .inr (.inl ⟨hi, hr⟩)
    · exact .inr (.inr (.inr (.inr ⟨i, offset, hi, hj, hout, hr⟩)))
    · exact .inr (.inr (.inr (.inl ⟨a, b, hi, hz, hr⟩)))
  · exact .inr (.inr (.inl ⟨hend, rfl⟩))

/-! ### Runs -/

/-- Settles O57: no step writes the program store. -/
theorem programStoreNeverChanges : Obligations.ProgramStoreNeverChanges := fun _ _ _ h =>
  runFor_induction (P := fun s t => t.prog = s.prog) (fun _ => rfl)
    (fun _ _ _ hstep ih => ih.trans (step_prog hstep)) h

/-- Over `k` steps the output grows by at most `k` values (R21). -/
theorem runFor_outGrowsBy {k : Nat} {s t : State} (h : runFor k s = .next t) :
    OutGrowsBy k s t := by
  induction k generalizing s with
  | zero =>
    cases h
    exact .of_eq rfl
  | succ k ih =>
    rw [runFor_succ] at h
    rcases hs : step s with u | r | r <;> rw [hs] at h
    · rw [Nat.add_comm]
      exact (step_outGrowsBy hs).trans (ih h)
    · cases h
    · cases h

/-- Settles O42: each step appends at most one value, and Print is the one instruction that does. -/
theorem outputOnlyGrows : Obligations.OutputOnlyGrows := by
  refine ⟨fun s t k h => runFor_outGrowsBy h, fun i s t h hi => ?_⟩
  rcases exec_out_cases h with ho | ⟨r, rfl, -⟩
  · exact ho
  · exact absurd rfl (hi r)

/-- Settles O29: along the run the memory stays canonical, the program stays the same, and so no step
writes the word. -/
theorem wordKeepsItsValueWithoutAStoreToIt : Obligations.WordKeepsItsValueWithoutAStoreToIt := by
  intro s t k offset hwf hprog h _
  refine runFor_induction (P := fun s t => s.stack.wf = true →
    (∀ src, Instr.storeToStack src offset ∉ s.prog) → SameWord offset s t)
    (fun _ _ _ => rfl) (fun s u t hstep ih hwf hprog => ?_) h hwf hprog
  have hkept : ∀ src, Instr.storeToStack src offset ∉ u.prog := step_prog hstep ▸ hprog
  exact (ih (step_keeps_wf hstep hwf) hkept).trans (step_sameWord hstep hwf hprog)

end Sys2Proof.Machine
end

section
/-! SUPPORT. From bytes to a step (`30_encoding.md` R60, R72; `70_reset_and_hazards.md` R191): what
loading puts into the program store, and that a step runs what stands there. -/

namespace Sys2Proof.Machine

/-- A Running machine's step is the instruction at the instruction pointer and nothing more (R24). -/
theorem step_of_getElem? {s : State} {i : Instr} (hrun : s.run = .running)
    (hi : s.prog[s.pc]? = some i) : step s = exec i s := by
  simp [step, fetch, hrun, hi]

/-- Bytes boot when they decode whole and the program fits (R72, R191). -/
theorem bootBytes_of_decode {bytes : List Byte} {p : List Instr} {n : Nat}
    (hdecode : decode bytes = .ok p) (hfits : p.length ≤ n) :
    bootBytes n bytes = .ok { State.reset with prog := p } := by
  simp [bootBytes, boot, programFits, hdecode, hfits]

/-- A boot that answers a state has decoded the bytes whole, and the state is the reset state with
that program. -/
theorem bootBytes_cases {bytes : List Byte} {n : Nat} {s : State} (h : bootBytes n bytes = .ok s) :
    ∃ p, decode bytes = .ok p ∧ p.length ≤ n ∧ s = { State.reset with prog := p } := by
  unfold bootBytes at h
  split at h
  · next p hp =>
    obtain ⟨hle, hs⟩ := boot_cases h
    exact ⟨p, hp, hle, hs⟩
  · cases h

theorem encode_append (p q : List Instr) : encode (p ++ q) = encode p ++ encode q :=
  List.flatMap_append

/-- Settles O8: every instruction value is well formed by its type, decoded or not. -/
theorem stepRunsTheDecodedInstruction : Obligations.StepRunsTheDecodedInstruction := by
  rintro bytes p s i - rfl hrun hi
  exact ⟨Laws.wellFormed_all i, step_of_getElem? hrun hi⟩

/-- Settles O9: the concatenated encodings are the encoding of the concatenated program, which
decodes to it. -/
theorem loadedStreamRunsItsKthInstruction : Obligations.LoadedStreamRunsItsKthInstruction := by
  intro front back i n hfits
  have hdecode : decode (encode front ++ encode [i] ++ encode back) = .ok (front ++ [i] ++ back) := by
    rw [← encode_append, ← encode_append]
    exact decodeInvertsEncode.2 _
  have hlength : (front ++ [i] ++ back).length ≤ n := by
    rwa [List.length_append, List.length_append, List.length_singleton]
  have hi : (front ++ [i] ++ back)[front.length]? = some i := by simp
  refine ⟨_, bootBytes_of_decode hdecode hlength, hi, fun t hprog hrun hpc => ?_⟩
  exact step_of_getElem? hrun (by rw [hprog, hpc]; exact hi)

/-- Settles O10: what booted was decoded, and what was decoded encodes back to the bytes. -/
theorem bootLoadsWholeStreamsOnly : Obligations.BootLoadsWholeStreamsOnly := by
  refine fun n bytes => ⟨fun s h => ?_, fun e h => ?_⟩
  · obtain ⟨p, hp, hle, rfl⟩ := bootBytes_cases h
    exact ⟨encodeInvertsDecode _ bytes p hp, hle, rfl⟩
  · rw [bootBytes, h]

/-- Settles O11: the word is placed at the index that the fetch reads. -/
theorem placedWordRunsNext : Obligations.PlacedWordRunsNext := by
  intro s nbits w i h
  have hplaced : s.withFetchWord nbits w =
      { s with prog := placeAt s.prog s.pc i, run := .running } := by
    rw [State.withFetchWord, h]
  rw [hplaced]
  exact ⟨step_of_getElem? rfl (getElem?_placeAt ..), rfl, fun _ => rfl⟩

end Sys2Proof.Machine
end

section
/-! SUPPORT. What an instruction depends on (`10_state.md` R12, `20_memory.md` R42, R46): a change of
the state that an instruction does not read passes through the instruction. -/

namespace Sys2Proof.Machine

/-- A change of the state that leaves the instruction pointer, the program, and the flag as they are
and commutes with the updates that are neither a register nor a stack write. -/
structure Transparent (f : State → State) : Prop where
  pc : ∀ s, (f s).pc = s.pc
  prog : ∀ s, (f s).prog = s.prog
  flag : ∀ s, (f s).flag = s.flag
  setPc : ∀ s n, (f s).setPc n = f (s.setPc n)
  advance : ∀ s, (f s).advance = f s.advance
  setFlag : ∀ s b, (f s).setFlag b = f (s.setFlag b)
  emit : ∀ s v, (f s).emit v = f (s.emit v)
  withRun : ∀ s x, ({ f s with run := x } : State) = f { s with run := x }
  observe : ∀ s, (f s).observe = s.observe

/-- Replacing one register, and replacing the whole stack memory, are such changes. -/
theorem transparent_writeReg (r : Reg) (v : Word) : Transparent (State.writeReg · r v) := by
  constructor <;> intros <;> rfl

theorem transparent_withStack (m : Memory) : Transparent (fun s => { s with stack := m }) := by
  constructor <;> intros <;> rfl

section Operations
variable {f : State → State} (hf : Transparent f) (s : State)
include hf

theorem complete_map : complete (f s) = mapNext f (complete s) :=
  congrArg Host.Outcome.next (hf.advance s)

theorem raise_map (k : FaultKind) : raise k (f s) = mapNext f (raise k s) := by
  calc raise k (f s)
      = .next (f { s with run := .faulted k (f s).pc }) :=
        congrArg Host.Outcome.next (hf.withRun s _)
    _ = mapNext f (raise k s) := by rw [hf.pc, raise, mapNext_next]

theorem halt_map (w : Word) : halt w (f s) = mapNext f (halt w s) :=
  congrArg Host.Outcome.next (hf.withRun s _)

theorem takeJump_map (c : Config) (offset : Word) :
    takeJump c offset (f s) = mapNext f (takeJump c offset s) := by
  simp only [takeJump, hf.pc, hf.prog]
  split
  · rw [hf.setPc, mapNext_next]
  · exact raise_map hf s _

/-- A conditional jump, written with the flag value on which it is taken. -/
theorem conditionalJump_map (b : Bool) (offset : Word) :
    (if (f s).flag = b then takeJump Config.spec offset (f s) else complete (f s)) =
      mapNext f (if s.flag = b then takeJump Config.spec offset s else complete s) := by
  rw [hf.flag]
  split
  · exact takeJump_map hf s _ offset
  · exact complete_map hf s

theorem compareBy_map {a b : Reg} (ha : (f s).readReg a = s.readReg a)
    (hb : (f s).readReg b = s.readReg b) (relation : Word → Word → Bool) :
    compareBy relation a b (f s) = mapNext f (compareBy relation a b s) := by
  rw [compareBy_eq, compareBy_eq, ha, hb, hf.setFlag, complete_map hf]

/-- A register write and the default advance, where the change commutes with the write. -/
theorem writeReg_advance_map {d : Reg} {v : Word}
    (hd : (f s).writeReg d v = f (s.writeReg d v)) :
    ((f s).writeReg d v).advance = f (s.writeReg d v).advance := by
  rw [hd, hf.advance]

theorem accumulate_map {a b : Reg} (ha : (f s).readReg a = s.readReg a)
    (hb : (f s).readReg b = s.readReg b)
    (hwrite : ∀ v, (f s).writeReg b v = f (s.writeReg b v)) (op : Int → Int → Int) :
    accumulate Config.spec op a b (f s) = mapNext f (accumulate Config.spec op a b s) := by
  rw [accumulate_eq, accumulate_eq, ha, hb, hwrite, complete_map hf]

/-- A change that an instruction neither reads nor overwrites passes through the instruction. -/
theorem exec_map {i : Instr} (hreads : ∀ q ∈ i.reads, (f s).readReg q = s.readReg q)
    (hwrites : ∀ d v, i.writes = some d → (f s).writeReg d v = f (s.writeReg d v))
    (hload : ∀ offset dest, i = .loadFromStack offset dest →
      (f s).stack.read (effectiveAddress offset) = s.stack.read (effectiveAddress offset))
    (hstore : ∀ src offset, i = .storeToStack src offset →
      ∀ a v, (f s).memWrite a v = f (s.memWrite a v)) :
    exec i (f s) = mapNext f (exec i s) := by
  cases i with
  | ret =>
    rw [exec, execRet, hreads 0 (by simp [Instr.reads]), halt_map hf]
    rfl
  | loadImmediate v d =>
    rw [exec_loadImmediate, exec_loadImmediate, writeReg_advance_map hf s (hwrites d _ rfl),
      mapNext_next]
  | loadFromStack offset d =>
    rw [exec_loadFromStack, exec_loadFromStack, hload offset d rfl,
      writeReg_advance_map hf s (hwrites d _ rfl), mapNext_next]
  | copyRegToReg src d =>
    rw [exec_copyRegToReg, exec_copyRegToReg, hreads src (by simp [Instr.reads]),
      writeReg_advance_map hf s (hwrites d _ rfl), mapNext_next]
  | storeToStack src offset =>
    rw [exec_storeToStack, exec_storeToStack, hreads src (by simp [Instr.reads]),
      hstore src offset rfl, hf.advance, mapNext_next]
  | print r =>
    rw [exec_print, exec_print, hreads r (by simp [Instr.reads]), hf.emit, hf.advance, mapNext_next]
  | add a b | sub a b | mul a b =>
    exact accumulate_map hf s (hreads a (by simp [Instr.reads])) (hreads b (by simp [Instr.reads]))
      (fun v => hwrites b v rfl) _
  | div a b =>
    have ha := hreads a (by simp [Instr.reads])
    have hb := hreads b (by simp [Instr.reads])
    rcases eq_or_ne (s.readReg a) 0 with hz | hz
    · rw [exec_div_of_zero hz, exec_div_of_zero (ha.trans hz), raise_map hf]
    · rw [exec_div_of_ne_zero hz, exec_div_of_ne_zero (ha ▸ hz), ha, hb,
        writeReg_advance_map hf s (hwrites b _ rfl), mapNext_next]
  | jump offset => exact takeJump_map hf s _ offset
  | jumpIfTrue offset => exact conditionalJump_map hf s true offset
  | jumpIfFalse offset => exact conditionalJump_map hf s false offset
  | compareEqual a b | compareNotEqual a b | compareLess a b | compareLessOrEqual a b
  | compareGreater a b | compareGreaterOrEqual a b =>
    exact compareBy_map hf s (hreads a (by simp [Instr.reads])) (hreads b (by simp [Instr.reads])) _

end Operations

/-! ### Registers (R12) -/

/-- An instruction that writes a register it does not read, by the table, overwrites whatever stood
there. -/
theorem exec_writeReg_of_writes {i : Instr} {r : Reg} (hw : i.writes = some r) (hr : r ∉ i.reads)
    (s : State) (v : Word) : exec i (s.writeReg r v) = exec i s := by
  cases i with
  | loadImmediate w d =>
    obtain rfl := Option.some.inj hw
    rw [exec_loadImmediate, exec_loadImmediate, State.writeReg_writeReg]
  | loadFromStack offset d =>
    obtain rfl := Option.some.inj hw
    rw [exec_loadFromStack, exec_loadFromStack, State.writeReg_writeReg, State.writeReg_stack]
  | copyRegToReg src d =>
    obtain rfl := Option.some.inj hw
    have hne : src ≠ d := by simpa [Instr.reads, eq_comm] using hr
    rw [exec_copyRegToReg, exec_copyRegToReg, State.writeReg_writeReg, State.readReg_writeReg,
      if_neg hne]
  | add a b | sub a b | mul a b | div a b =>
    obtain rfl := Option.some.inj hw
    exact absurd (by simp [Instr.reads]) hr
  | _ => cases hw

/-- A register that an instruction neither reads nor writes keeps, through the instruction, whatever
is put into it. -/
theorem exec_writeReg_of_not_writes {i : Instr} {r : Reg} (hw : i.writes ≠ some r)
    (hr : r ∉ i.reads) (s : State) (v : Word) :
    exec i (s.writeReg r v) = mapNext (State.writeReg · r v) (exec i s) := by
  refine exec_map (transparent_writeReg r v) s (fun q hq => ?_) (fun d w hd => ?_)
    (fun _ _ _ => rfl) (fun _ _ _ _ _ => rfl)
  · have hne : q ≠ r := fun e => hr (e ▸ hq)
    rw [State.readReg_writeReg, if_neg hne]
  · have hne : r ≠ d := fun e => hw (e ▸ hd)
    exact State.writeReg_comm s hne v w

/-- Settles O56: what is written by the case analysis of an instruction's next state, what is read by
running the instruction with the register replaced. -/
theorem registersReadAndWrittenAreThoseOfTheTable :
    Obligations.RegistersReadAndWrittenAreThoseOfTheTable := by
  refine ⟨fun i s t r h _ hw => exec_readReg h hw, fun i s t r v h hr => ?_⟩
  by_cases hw : i.writes = some r
  · refine ⟨t, by rw [exec_writeReg_of_writes hw hr, h], rfl, fun _ => ?_⟩
    rw [if_pos hw]
  · refine ⟨t.writeReg r v, by rw [exec_writeReg_of_not_writes hw hr, h, mapNext_next],
      (transparent_writeReg r v).observe t, fun _ => ?_⟩
    rw [if_neg hw]

/-! ### The stack memory (R42, R46) -/

/-- An instruction that is neither a load nor a store carries the stack memory through unread. -/
theorem exec_withStack {i : Instr} (hload : ∀ offset dest, i ≠ .loadFromStack offset dest)
    (hstore : ∀ src offset, i ≠ .storeToStack src offset) (s : State) (m : Memory) :
    exec i { s with stack := m } = mapNext (fun t => { t with stack := m }) (exec i s) :=
  exec_map (transparent_withStack m) s (fun _ _ => rfl) (fun _ _ _ => rfl)
    (fun offset dest hi => absurd hi (hload offset dest))
    (fun src offset hi => absurd hi (hstore src offset))

/-- Settles O28: what is written by the case analysis of the stack memory, what is read by running
the instruction with the memory replaced. -/
theorem onlyLoadsAndStoresTouchTheStack : Obligations.OnlyLoadsAndStoresTouchTheStack := by
  refine ⟨fun i s t h _ hstore addr => ?_, fun i s t m h hload hstore => ?_,
    fun offset dest s t m h hm => ?_⟩
  · rcases exec_stack_cases h with hs | ⟨src, offset, hi, -⟩
    · rw [hs]
    · exact absurd hi (hstore src offset)
  · exact ⟨{ t with stack := m }, by rw [exec_withStack hload hstore, h, mapNext_next],
      (transparent_withStack m).observe t, fun _ => rfl⟩
  · rw [exec_loadFromStack] at h ⊢
    obtain rfl := Host.Outcome.next.inj h
    rw [hm]
    rfl

/-- Settles O30: the load reads the memory that the store wrote. -/
theorem loadReturnsTheStoredWord : Obligations.LoadReturnsTheStoredWord := by
  intro src dest offset other s t u hwf hstore hload
  obtain rfl := Host.Outcome.next.inj ((exec_storeToStack src offset s).symm.trans hstore)
  obtain rfl := Host.Outcome.next.inj ((exec_loadFromStack other dest _).symm.trans hload)
  have haddr : effectiveAddress other = effectiveAddress offset ↔ other = offset :=
    BitVec.toNat_inj
  rw [State.advance_readReg, State.readReg_writeReg, if_pos rfl, read_memWrite_advance hwf]
  simp only [haddr]

/-- What follows the first entry of a canonical memory lists no index up to that entry's. -/
theorem Memory.wfFrom_tail {lo a : Nat} {v : Word} {m : Memory}
    (h : Memory.wfFrom lo ((a, v) :: m) = true) : Memory.wfFrom (a + 1) m = true := by
  rw [Memory.wfFrom, Bool.and_eq_true] at h
  exact h.2

/-- The first listed word of a canonical memory is not what an unlisted word holds. -/
theorem Memory.read_head {lo a : Nat} {v : Word} {m : Memory}
    (h : Memory.wfFrom lo ((a, v) :: m) = true) :
    Memory.read ((a, v) :: m) a ≠ Memory.unlisted := by
  simp only [Memory.wfFrom, Bool.and_eq_true, decide_eq_true_eq] at h
  obtain ⟨⟨-, hv⟩, -⟩ := h
  rwa [Memory.read_cons, if_pos rfl]

/-- A canonical memory lists no index below its first one. -/
theorem Memory.read_before_head {lo a x : Nat} {v : Word} {m : Memory}
    (h : Memory.wfFrom lo ((a, v) :: m) = true) (hx : x < a) :
    Memory.read ((a, v) :: m) x = Memory.unlisted := by
  rw [Memory.read_cons, if_neg (Nat.ne_of_lt hx)]
  exact Memory.read_below (Memory.wfFrom_tail h) (Nat.lt_succ_of_lt hx)

/-- Canonical memories that read alike are the same data: neither can begin below the other, and up
to the common first index both tails read as unlisted. -/
theorem Memory.eq_of_read_eq {lo : Nat} {m n : Memory} (hm : Memory.wfFrom lo m = true)
    (hn : Memory.wfFrom lo n = true) (hread : ∀ addr, Memory.read m addr = Memory.read n addr) :
    m = n := by
  induction m generalizing lo n with
  | nil =>
    cases n with
    | nil => rfl
    | cons e n => exact absurd (hread e.1).symm (Memory.read_head hn)
  | cons e m ih =>
    obtain ⟨a, v⟩ := e
    cases n with
    | nil => exact absurd (hread a) (Memory.read_head hm)
    | cons e n =>
      obtain ⟨b, w⟩ := e
      have hab : a = b := by
        rcases lt_trichotomy a b with hlt | heq | hlt
        · exact absurd ((hread a).trans (Memory.read_before_head hn hlt)) (Memory.read_head hm)
        · exact heq
        · exact absurd ((hread b).symm.trans (Memory.read_before_head hm hlt)) (Memory.read_head hn)
      subst hab
      have hm' := Memory.wfFrom_tail hm
      have hn' := Memory.wfFrom_tail hn
      have hvw : v = w := by simpa [Memory.read_cons] using hread a
      have htails : ∀ addr, Memory.read m addr = Memory.read n addr := fun addr => by
        rcases Nat.lt_or_ge addr (a + 1) with hlt | hge
        · rw [Memory.read_below hm' hlt, Memory.read_below hn' hlt]
        · have hne : addr ≠ a := by omega
          simpa [Memory.read_cons, hne] using hread addr
      rw [hvw, ih hm' hn' htails]

/-- Settles O31: the canonical form with the lower bound 0. -/
theorem canonicalMemoriesAreEqualWhenTheyReadAlike :
    Obligations.CanonicalMemoriesAreEqualWhenTheyReadAlike :=
  fun _ _ hm hn hread => Memory.eq_of_read_eq hm hn hread

end Sys2Proof.Machine
end
